-- ==== Sys2Proof/Word.lean ====
section
/-! DEFINITION. The word types of the core: bytes, memory addresses, register numbers. -/

namespace Sys2Proof

/-- A byte: the content of a memory cell or of a register (rules R8, R12, R25). -/
abbrev Byte := BitVec 8

/-- A memory address, 0 to 255: arithmetic on it is modulo 256 (rules R17, R40, R48). -/
abbrev Addr := BitVec 8

/-- The number of a general register, R0 to R7 (rule R10). -/
abbrev Reg := Fin 8

end Sys2Proof
end

