-- ==== Sys2Proof/Config.lean ====
section
/-! DEFINITION. The constants of rule R7 other than the opcodes (those stand in Decode.lean), and the one free value. -/

namespace Sys2Proof.Config

/-- The number of memory cells (rules R7, R25). -/
abbrev memSize : Nat := 256

/-- The number of general registers (rules R7, R10). -/
abbrev nreg : Nat := 8

/-- R7 is the stack pointer (rules R7, R11). -/
abbrev spIndex : Reg := 7

/-- What R7 holds after reset (rules R7, R30). -/
def spInit : Byte := 0xF4

/-- Where execution begins (rules R7, R30, R181). -/
def pcInit : Addr := 0

/-- What FL holds after reset (rules R7, R30; the spec's decision D3). -/
def flInit : Byte := 0

/-- What a cell reads as that nothing has written since reset (rules R30, R42). -/
def unlistedByte : Byte := 0

/-- A free value: the byte that `fault_operand` holds after a fault that does not define it (rule R22 and row U13).
Nothing is known of it. DESIGN CHOICE, safe: log entry 3. -/
opaque freeByte : Nat → Byte

end Sys2Proof.Config
end

