-- ==== Sys2Proof/Machine/State.lean ====
section
/-! DEFINITION. The state of the machine, its reset value, and the reasons a step or a host operation stops. -/

namespace Sys2Proof.Machine

/-- Memory: the cells that do not read as `Config.unlistedByte`, by rising address (`Memory.wf`). -/
abbrev Memory := List Host.Cell

/-- The run state (rule R21). -/
inductive RunState where
  /-- not yet started -/
  | idle
  /-- a run is going on -/
  | running
  /-- a HLT was executed -/
  | halted
  /-- a fatal condition was raised -/
  | faulted
deriving DecidableEq, Repr

/-- The four fatal conditions (rule R150). -/
inductive FaultCause where
  /-- rule R151 -/
  | unknownInstruction
  /-- rule R152 -/
  | unsupportedOperation
  /-- rule R153 -/
  | divisionByZero
  /-- rule R154 -/
  | outOfBounds
deriving DecidableEq, Repr

/-- Everything the spec gives the machine (10_state.md, sections 1 to 7). -/
structure State where
  /-- the register file R0 to R7 (rules R10, R11) -/
  regs : Vector Byte 8
  /-- the program counter (rules R14, R15) -/
  pc : Addr
  /-- the flags register FL (rule R18) -/
  fl : Byte
  /-- `run_state` (rule R21) -/
  runState : RunState
  /-- `fault_cause` of the fault record (rules R22, R155) -/
  faultCause : BitVec 3
  /-- `fault_opcode` of the fault record (rule R22) -/
  faultOpcode : Byte
  /-- `fault_addr` of the fault record (rule R22) -/
  faultAddr : Addr
  /-- `fault_operand` of the fault record (rule R22) -/
  faultOperand : Byte
  /-- the 256 memory cells (rules R25, R40) -/
  mem : Memory
  /-- the output channel, oldest first (rule R27) -/
  output : List Byte
  /-- the MODEL's own: the index of the next free value (log entry 3) -/
  freeCount : Nat
deriving DecidableEq, Repr

/-- The state after `construct()` (rules R30, R180). The fault record's four values are the model's: rule R30 leaves them
unspecified. DESIGN CHOICE, unsafe: log entry 2. -/
def State.reset : State where
  regs := #v[0, 0, 0, 0, 0, 0, 0, Config.spInit]
  pc := Config.pcInit
  fl := Config.flInit
  runState := .idle
  faultCause := 0
  faultOpcode := 0
  faultAddr := 0
  faultOperand := 0
  mem := []
  output := []
  freeCount := 0

/-- Why there is no step: the machine is not `Running` (rule R106, row U16: stuck). All three are raised by
`controllerStep` alone and by no instruction, and all three are safe: the machine has no step there either. The four
fatal conditions of rule R150 are no such stop: taking one is a next state (`raiseFault`). -/
inductive Fault where
  /-- `controllerStep` in `Idle`: nothing runs before the host invokes `run`; safe -/
  | stuckIdle
  /-- `controllerStep` in `Halted`: only reset leaves it; safe -/
  | stuckHalted
  /-- `controllerStep` in `Faulted`: only reset leaves it; safe -/
  | stuckFaulted
deriving DecidableEq, Repr

/-- What the model has no move for. -/
inductive Refusal where
  /-- `exec`, for an instruction without a meaning; no arm uses it; safe -/
  | notModelled (mnemonic : String)
  /-- `writeMemory` outside `Idle` (rule R182, row U14); safe -/
  | writeMemoryNotIdle
  /-- `writeMemory` past address 255 (rule R182, row U14); safe -/
  | writeMemoryPastEnd
deriving DecidableEq, Repr

end Sys2Proof.Machine
end

