-- ==== Sys2Proof/Machine/Flags.lean ====
section
/-! DEFINITION. The flags register FL: its three named bits and the value CMP computes (rules R18, R85). -/

namespace Sys2Proof.Machine

/-- E, bit 0: equal (rule R18). -/
def flagE : Byte := 0x01

/-- G, bit 1: greater (rule R18). -/
def flagG : Byte := 0x02

/-- L, bit 2: less (rule R18). -/
def flagL : Byte := 0x04

/-- What CMP writes into FL, all eight bits (rule R85); the comparison is unsigned (rules R12, R88). -/
def cmpFlags (x y : Byte) : Byte :=
  if x = y then flagE else if y.toNat < x.toNat then flagG else flagL

/-- Bit E of FL. -/
def State.flE (s : State) : Bool := s.fl.getLsbD 0

/-- Bit G of FL. -/
def State.flG (s : State) : Bool := s.fl.getLsbD 1

/-- Bit L of FL. -/
def State.flL (s : State) : Bool := s.fl.getLsbD 2

end Sys2Proof.Machine
end

