-- ==== Sys2Proof/Machine/Ops.lean ====
section
/-! DEFINITION. The named operations over memory, registers, output and run state, the stack operations, and the entry of a
fatal condition. -/

namespace Sys2Proof.Machine

/-! Memory: the only access is one byte (rule R42). -/

/-- The cells stand at rising addresses from `lo` on, below `Config.memSize`, and none reads as an unlisted cell does. -/
def Memory.wfFrom (lo : Nat) : Memory → Bool
  | [] => true
  | (k, v) :: m =>
    decide (lo ≤ k) && decide (k < Config.memSize) && decide (v ≠ Config.unlistedByte) && Memory.wfFrom (k + 1) m

/-- The canonical form of memory. -/
def Memory.wf (m : Memory) : Bool := Memory.wfFrom 0 m

/-- `MemRead(addr, 1)` (rule R42). -/
def Memory.read : Memory → Addr → Byte
  | [], _ => Config.unlistedByte
  | (k, v) :: m, a => if k = a.toNat then v else Memory.read m a

/-- The entry of one cell: none where the value is what an unlisted cell reads as. -/
def Memory.cell (a : Addr) (v : Byte) : Memory := if v = Config.unlistedByte then [] else [(a.toNat, v)]

/-- `MemWrite(addr, 1, v)` (rule R42), keeping the canonical form. -/
def Memory.write : Memory → Addr → Byte → Memory
  | [], a, v => Memory.cell a v
  | (k, w) :: m, a, v =>
    if a.toNat < k then Memory.cell a v ++ (k, w) :: m
    else if k = a.toNat then Memory.cell a v ++ m
    else (k, w) :: Memory.write m a v

/-! The single-field updates. -/

/-- `x[r]` (rules R8, R10). -/
def State.reg (s : State) (r : Reg) : Byte := s.regs[r]

/-- `x[r] <- v` (rules R8, R10, R12). -/
def State.setReg (s : State) (r : Reg) (v : Byte) : State := { s with regs := s.regs.set r v }

/-- `pc <- target` (rule R8). -/
def State.setPc (s : State) (target : Addr) : State := { s with pc := target }

/-- `FL <- v`, all eight bits (rules R8, R19). -/
def State.setFl (s : State) (v : Byte) : State := { s with fl := v }

/-- `run_state <- rs` (rule R21). -/
def State.setRunState (s : State) (rs : RunState) : State := { s with runState := rs }

/-- The content of the cell at `a`. -/
def State.load (s : State) (a : Addr) : Byte := s.mem.read a

/-- `MemWrite(a, 1, v)` on the machine's memory. -/
def State.store (s : State) (a : Addr) (v : Byte) : State := { s with mem := s.mem.write a v }

/-- `Output(v)` (rule R27): the newest byte stands last. -/
def State.emit (s : State) (v : Byte) : State := { s with output := s.output ++ [v] }

/-- The generic advance by `1 + n` (rule R104), modulo 256 (rule R17). -/
def State.advance (s : State) (n : Nat) : State := s.setPc (s.pc + BitVec.ofNat 8 (1 + n))

/-! The stack: R7 holds the address of the top byte (rule R130). -/

/-- `SP`, the second name of `x[7]` (rules R8, R11). -/
def State.sp (s : State) : Byte := s.reg Config.spIndex

/-- `x[7] <- (x[7] - 1) mod 256`. -/
def State.decSp (s : State) : State := s.setReg Config.spIndex (s.sp - 1)

/-- `x[7] <- (x[7] + 1) mod 256`. -/
def State.incSp (s : State) : State := s.setReg Config.spIndex (s.sp + 1)

/-- The byte at the address in R7. -/
def State.top (s : State) : Byte := s.load s.sp

/-- The push of PUSH and CALL: decrement R7, then store at the new R7 the byte that `v` gives AFTER the decrement
(rules R131, R133, R141). -/
def State.pushByte (s : State) (v : State → Byte) : State := s.decSp.store s.decSp.sp (v s.decSp)

/-! Fatal conditions. -/

/-- The cause codes (rule R155). -/
def FaultCause.code : FaultCause → BitVec 3
  | .unknownInstruction => 1
  | .unsupportedOperation => 2
  | .divisionByZero => 3
  | .outOfBounds => 4

/-- Fault entry (rule R156): `run_state` becomes `Faulted` and the record is written; `pc`, the registers, memory, FL and
the output channel keep their values. It happens before the instruction changes anything (rule R157), so `pc` is still
`a0` and the byte there is the opcode that was fetched. `operand` is the offending operand byte of `OutOfBounds`; without
one, `fault_operand` is a free value (row U13, log entry 3). -/
def raiseFault (cause : FaultCause) (operand : Option Byte) (s : State) : State :=
  { s with
    runState := .faulted
    faultCause := cause.code
    faultOpcode := s.load s.pc
    faultAddr := s.pc
    faultOperand := operand.getD (Config.freeByte s.freeCount)
    freeCount := s.freeCount + 1 }

end Sys2Proof.Machine
end

