-- ==== Sys2Proof/Machine/Operands.lean ====
section
/-! DEFINITION. The register-operand forms (rules R62, R64): a handler runs on the registers its operand bytes name, and
`OutOfBounds` is raised, before any change, for the first byte that names none. -/

namespace Sys2Proof.Machine

/-- The register an operand byte names: the whole byte is the index (rule R64). -/
def regOf (o : Byte) : Option Reg := if h : o.toNat < 8 then some ⟨o.toNat, h⟩ else none

/-- Formats F1 and F2I: one register operand (rules R62, R64, R154). -/
def withReg (o : Byte) (s : State) (handler : Reg → Host.Outcome State Fault Refusal) :
    Host.Outcome State Fault Refusal :=
  match regOf o with
  | none => .next (raiseFault .outOfBounds (some o) s)
  | some r => handler r

/-- Format F2R: two register operands, the first one checked first (rules R62, R64, R158). -/
def withRegs (o1 o2 : Byte) (s : State) (handler : Reg → Reg → Host.Outcome State Fault Refusal) :
    Host.Outcome State Fault Refusal :=
  withReg o1 s fun a => withReg o2 s fun b => handler a b

end Sys2Proof.Machine
end

