-- ==== Sys2Proof/Machine/Alu.lean ====
section
/-! DEFINITION. The ALU block (rules R80 to R89) and the ALU instructions MUL and CMP (rules R90, R91). -/

namespace Sys2Proof.Machine

/-- The ALU's closed set of operations (rules R80, R86). -/
inductive AluOp where
  | add | sub | mul | div | cmp
deriving DecidableEq, Repr

/-- One ALU operation on two registers: the new state, or the fatal condition it raises with nothing changed. Both operands
are read before the result is written (rule R89); ADD, SUB, MUL and DIV write `x[a]`, CMP writes FL (rules R80 to R85). -/
def alu (op : AluOp) (a b : Reg) (s : State) : Except FaultCause State :=
  match op with
  | .add => .ok (s.setReg a (s.reg a + s.reg b))
  | .sub => .ok (s.setReg a (s.reg a - s.reg b))
  | .mul => .ok (s.setReg a (s.reg a * s.reg b))
  | .div => if s.reg b = 0 then .error .divisionByZero else .ok (s.setReg a (s.reg a / s.reg b))
  | .cmp => .ok (s.setFl (cmpFlags (s.reg a) (s.reg b)))

/-- The names of the five operations (rule R80). -/
def aluOpNamed (name : String) : Option AluOp :=
  if name = "ADD" then some .add
  else if name = "SUB" then some .sub
  else if name = "MUL" then some .mul
  else if name = "DIV" then some .div
  else if name = "CMP" then some .cmp
  else none

/-- The ALU with the open selector of rule R86: any other name fails with `UnsupportedOperation` (rule R152). The decoder
never produces one. -/
def aluNamed (name : String) (a b : Reg) (s : State) : Except FaultCause State :=
  match aluOpNamed name with
  | none => .error .unsupportedOperation
  | some op => alu op a b s

/-- What the controller does after the ALU in an instruction of `n` operand bytes: the advance (rule R104), or the entry of
the fatal condition (rule R156). -/
def afterAlu (n : Nat) (s : State) : Except FaultCause State → Host.Outcome State Fault Refusal
  | .ok t => .next (t.advance n)
  | .error cause => .next (raiseFault cause none s)

/-- MUL a, b (rule R90). -/
def execMul (a b : Byte) (s : State) : Host.Outcome State Fault Refusal :=
  withRegs a b s fun ra rb => afterAlu 2 s (alu .mul ra rb s)

/-- CMP a, b (rule R91). -/
def execCmp (a b : Byte) (s : State) : Host.Outcome State Fault Refusal :=
  withRegs a b s fun ra rb => afterAlu 2 s (alu .cmp ra rb s)

end Sys2Proof.Machine
end

