-- ==== Sys2Proof/Machine/CallReturn.lean ====
section
/-! DEFINITION. CALL and RET (rules R140 to R146): no generic advance follows (rule R104). -/

namespace Sys2Proof.Machine

/-- CALL r (rule R141): the return address is `a0 + 2`; the target is read after the decrement (rule R143). -/
def execCall (r : Byte) (s : State) : Host.Outcome State Fault Refusal :=
  withReg r s fun d =>
    let t := s.pushByte fun t => t.pc + 2
    .next (t.setPc (t.reg d))

/-- RET (rule R142). -/
def execRet (s : State) : Host.Outcome State Fault Refusal := .next ((s.setPc s.top).incSp)

end Sys2Proof.Machine
end

