-- ==== Sys2Proof/Machine/Halt.lean ====
section
/-! DEFINITION. HLT (rule R108). -/

namespace Sys2Proof.Machine

/-- HLT (rule R108): `Halted`, and the generic advance applies. -/
def execHlt (s : State) : Host.Outcome State Fault Refusal := .next ((s.setRunState .halted).advance 0)

end Sys2Proof.Machine
end

