-- ==== Sys2Proof/Machine/LoadPrint.lean ====
section
/-! DEFINITION. LDI and PRN (rules R120 to R123). -/

namespace Sys2Proof.Machine

/-- LDI r, imm (rule R121). -/
def execLdi (r imm : Byte) (s : State) : Host.Outcome State Fault Refusal :=
  withReg r s fun d => .next ((s.setReg d imm).advance 2)

/-- PRN r (rule R122). -/
def execPrn (r : Byte) (s : State) : Host.Outcome State Fault Refusal :=
  withReg r s fun d => .next ((s.emit (s.reg d)).advance 1)

end Sys2Proof.Machine
end

