-- ==== Sys2Proof/Machine/Stack.lean ====
section
/-! DEFINITION. PUSH and POP (rules R130 to R134). -/

namespace Sys2Proof.Machine

/-- PUSH r (rule R131): `x[r]` is read after the decrement, so PUSH R7 stores the decremented value (rule R133). -/
def execPush (r : Byte) (s : State) : Host.Outcome State Fault Refusal :=
  withReg r s fun d => .next ((s.pushByte fun t => t.reg d).advance 1)

/-- POP r (rule R132): the increment comes after the load, also when r is R7 (rule R133). -/
def execPop (r : Byte) (s : State) : Host.Outcome State Fault Refusal :=
  withReg r s fun d => .next ((s.setReg d s.top).incSp.advance 1)

end Sys2Proof.Machine
end

