-- ==== Sys2Proof/Syntax.lean ====
section
/-! DEFINITION. The nine instructions (rule R68), and the nine handler tags the decoder selects among (rule R26). -/

namespace Sys2Proof

/-- One instruction with its operand bytes. A register operand is the WHOLE byte that names the register (rule R64): a
byte above 7 names none, and the instruction raises `OutOfBounds` (rule R154). -/
inductive Instr where
  /-- HLT, rule R108 -/
  | hlt
  /-- RET, rule R142 -/
  | ret
  /-- PUSH r, rule R131 -/
  | push (r : Byte)
  /-- POP r, rule R132 -/
  | pop (r : Byte)
  /-- PRN r, rule R122 -/
  | prn (r : Byte)
  /-- CALL r, rule R141 -/
  | call (r : Byte)
  /-- LDI r, imm, rule R121 -/
  | ldi (r imm : Byte)
  /-- MUL a, b, rule R90 -/
  | mul (a b : Byte)
  /-- CMP a, b, rule R91 -/
  | cmp (a b : Byte)
deriving DecidableEq, Repr

/-- The closed set of handlers of the dispatch table (rule R26). -/
inductive Handler where
  | hlt | ret | push | pop | prn | call | ldi | mul | cmp
deriving DecidableEq, Repr

end Sys2Proof
end

