-- ==== Sys2Proof/WellFormed.lean ====
section
/-! DEFINITION. Which instructions are well formed: every register operand names a register (rule R64). -/

namespace Sys2Proof

/-- The register operands in the order they are checked, first operand first (rules R64, R158). The immediate of LDI is
no register operand and is never checked (rule R121). -/
def Instr.regOperands : Instr → List Byte
  | .hlt => []
  | .ret => []
  | .push r => [r]
  | .pop r => [r]
  | .prn r => [r]
  | .call r => [r]
  | .ldi r _ => [r]
  | .mul a b => [a, b]
  | .cmp a b => [a, b]

/-- The byte names one of R0 to R7 (rule R64). -/
def namesReg (o : Byte) : Bool := decide (o.toNat < Config.nreg)

/-- Every register operand names a register. -/
def Instr.wellFormed (i : Instr) : Bool := i.regOperands.all namesReg

end Sys2Proof
end

