-- ==== Sys2Proof/Decode.lean ====
section
/-! DEFINITION. The opcode map, the decoder and the encoder (rules R60 to R72). -/

namespace Sys2Proof

/-- Bits 7 to 6 of an opcode byte, the operand count `N` (rules R60, R61). -/
def operandField (op : Byte) : Nat := (op >>> 6).toNat

/-- LDI's opcode, given by the source (rule R66). -/
def opLdi : Byte := 0x82

/-- PRN's opcode, given by the source (rule R66). -/
def opPrn : Byte := 0x47

/-- HLT's opcode, given by the source (rule R66). -/
def opHlt : Byte := 0x01

/-- The six opcode values the source does not give: parameters of the model, under the two constraints of rule R67, which
are the two proof fields. -/
structure Opcodes where
  ret  : Byte
  push : Byte
  pop  : Byte
  call : Byte
  mul  : Byte
  cmp  : Byte
  /-- bits 7 to 6 of each value are the instruction's operand count -/
  counts : operandField ret = 0 ∧ operandField push = 1 ∧ operandField pop = 1 ∧ operandField call = 1 ∧
    operandField mul = 2 ∧ operandField cmp = 2
  /-- the nine values are pairwise different -/
  distinct : [opHlt, ret, push, pop, opPrn, call, opLdi, mul, cmp].Nodup

/-- The default values of rule R67, the ones of `opcode_table.json`. UNVERIFIED, unsafe: the spec takes them from general
knowledge (log entry 1). -/
def defaultOpcodes : Opcodes where
  ret := 0x11
  push := 0x45
  pop := 0x46
  call := 0x50
  mul := 0xA2
  cmp := 0xA7
  counts := by decide
  distinct := by decide

/-- The opcode map (rule R68). -/
def opcodeOf (ops : Opcodes) : Handler → Byte
  | .hlt => opHlt
  | .ret => ops.ret
  | .push => ops.push
  | .pop => ops.pop
  | .prn => opPrn
  | .call => ops.call
  | .ldi => opLdi
  | .mul => ops.mul
  | .cmp => ops.cmp

/-- The handlers in the order of rule R68's table. -/
def handlers : List Handler := [.hlt, .ret, .push, .pop, .prn, .call, .ldi, .mul, .cmp]

/-- The dispatch table: a lookup of the whole opcode byte (rules R26, R65); a byte with no entry is unrecognised
(rule R69). -/
def dispatch (ops : Opcodes) (op : Byte) : Option Handler :=
  handlers.find? fun h => decide (opcodeOf ops h = op)

/-- Format F0: no operand byte (rule R62). -/
def formatF0 (i : Instr) (bytes : List Byte) : Option (Instr × List Byte) := some (i, bytes)

/-- Format F1: one operand byte (rule R62). -/
def formatF1 (k : Byte → Instr) : List Byte → Option (Instr × List Byte)
  | [] => none
  | o1 :: rest => some (k o1, rest)

/-- Formats F2R and F2I: two operand bytes, the first operand at the lower address (rules R43, R62). -/
def formatF2 (k : Byte → Byte → Instr) : List Byte → Option (Instr × List Byte)
  | [] => none
  | [_] => none
  | o1 :: o2 :: rest => some (k o1 o2, rest)

/-- A handler's operand bytes, in its format (rules R62, R68). -/
def readOperands : Handler → List Byte → Option (Instr × List Byte)
  | .hlt => formatF0 .hlt
  | .ret => formatF0 .ret
  | .push => formatF1 .push
  | .pop => formatF1 .pop
  | .prn => formatF1 .prn
  | .call => formatF1 .call
  | .ldi => formatF2 .ldi
  | .mul => formatF2 .mul
  | .cmp => formatF2 .cmp

/-- Why bytes are no instruction. -/
inductive DecodeError where
  /-- there is no opcode byte -/
  | noBytes
  /-- the opcode is none of the nine (rules R69, R151) -/
  | unknownInstruction (op : Byte)
  /-- the opcode is recognised and its operand bytes are not all there; a fetch from memory never gives this -/
  | truncated (op : Byte)
deriving DecidableEq, Repr

/-- The decoder: the instruction at the front of the bytes, and the bytes after it (rules R60, R65). -/
def decode (ops : Opcodes) : List Byte → Except DecodeError (Instr × List Byte)
  | [] => .error .noBytes
  | op :: rest =>
    match dispatch ops op with
    | none => .error (.unknownInstruction op)
    | some h =>
      match readOperands h rest with
      | none => .error (.truncated op)
      | some r => .ok r

/-- The handler that carries out an instruction. -/
def Instr.handler : Instr → Handler
  | .hlt => .hlt
  | .ret => .ret
  | .push _ => .push
  | .pop _ => .pop
  | .prn _ => .prn
  | .call _ => .call
  | .ldi _ _ => .ldi
  | .mul _ _ => .mul
  | .cmp _ _ => .cmp

/-- The operand bytes in ascending address order (rules R43, R72). -/
def Instr.operands : Instr → List Byte
  | .hlt => []
  | .ret => []
  | .push r => [r]
  | .pop r => [r]
  | .prn r => [r]
  | .call r => [r]
  | .ldi r imm => [r, imm]
  | .mul a b => [a, b]
  | .cmp a b => [a, b]

/-- The encoder: opcode byte, then operand bytes (rules R43, R62, R68). -/
def encode (ops : Opcodes) (i : Instr) : List Byte := opcodeOf ops i.handler :: i.operands

/-- The bytes of an instruction whose bits are `w`, first byte in bits 7 to 0; bits from `nbits` on are 0. Three bytes,
the longest instruction. -/
def tableBytes (nbits w : Nat) : List Byte :=
  [0, 1, 2].map fun k => if 8 * k < nbits then BitVec.ofNat 8 (w >>> (8 * k)) else 0

/-- The decoder on a word of `opcode_table.json`. -/
def decodeTableWord (nbits w : Nat) : Option Instr :=
  match decode defaultOpcodes (tableBytes nbits w) with
  | .error _ => none
  | .ok (i, _) => some i

end Sys2Proof
end

