-- ==== Sys2Proof/Machine/Fetch.lean ====
section
/-! DEFINITION. Fetching an instruction's bytes, and placing them where the fetch reads them (rules R43, R102, R103). -/

namespace Sys2Proof.Machine

/-- The byte `k` places after `pc`, modulo 256 (rules R17, R43). -/
def State.codeByte (s : State) (k : Nat) : Byte := s.load (s.pc + BitVec.ofNat 8 k)

/-- How many operand bytes the decoder reads after the opcode `op`: what its bits 7 to 6 say if it is recognised, none
otherwise (rules R65, R69, R103). -/
def fetchCount (ops : Opcodes) (op : Byte) : Nat :=
  match dispatch ops op with
  | none => 0
  | some _ => operandField op

/-- The bytes of the instruction at `pc`, opcode first (rules R53, R102, R103). -/
def fetch (ops : Opcodes) (s : State) : List Byte :=
  (List.range (1 + fetchCount ops (s.codeByte 0))).map s.codeByte

/-- The bytes stored from address `a` on, upward, modulo 256. -/
def State.storeBytes (s : State) (a : Addr) : List Byte → State
  | [] => s
  | v :: vs => (s.store a v).storeBytes (a + 1) vs

end Sys2Proof.Machine
end

