-- ==== Sys2Proof/Machine/Controller.lean ====
section
/-! DEFINITION. The controller's step (rules R100 to R107), for any legal choice of the six open opcodes. -/

namespace Sys2Proof.Machine

/-- One step (rule R101): in `Running` fetch, decode, execute and advance, or take `UnknownInstruction` (rule R151). In the
three other run states there is no step (rule R106, row U16). -/
def controllerStep (ops : Opcodes) (s : State) : Host.Outcome State Fault Refusal :=
  match s.runState with
  | .idle => .fault .stuckIdle
  | .running =>
    match decode ops (fetch ops s) with
    | .error _ => .next (raiseFault .unknownInstruction none s)
    | .ok (i, _) => exec i s
  | .halted => .fault .stuckHalted
  | .faulted => .fault .stuckFaulted

end Sys2Proof.Machine
end

