-- ==== Sys2Proof/Machine/Step.lean ====
section
/-! DEFINITION. The machine's step with the default opcodes, and an opcode-table word placed where it is fetched next. -/

namespace Sys2Proof.Machine

/-- The step with the opcodes of `opcode_table.json` (rule R68). -/
def step (s : State) : Host.Outcome State Fault Refusal := controllerStep defaultOpcodes s

/-- `s` with the bytes of the word stored from `pc` on, and running: it stands for the load and for `run` (rule R181, log
entry 6). -/
def State.withFetchWord (s : State) (nbits w : Nat) : State :=
  (s.storeBytes s.pc (tableBytes nbits w)).setRunState .running

end Sys2Proof.Machine
end

