-- ==== Sys2Proof/Machine/Boundary.lean ====
section
/-! DEFINITION. The host's operations on the core (rule R28): construct, write_memory, run, and a run to its end. -/

namespace Sys2Proof.Machine

/-- `construct()` (rules R28, R180): every field the spec names takes its reset value. Only the model's count of free
values goes on, so that a free value is fresh after a reset too (log entry 3). -/
def construct (s : State) : State := { State.reset with freeCount := s.freeCount }

/-- `write_memory(address, bytes)` (rules R28, R182): only in `Idle`, and only if it ends at or below address 255. -/
def writeMemory (a : Addr) (bytes : List Byte) (s : State) : Host.Outcome State Fault Refusal :=
  if s.runState ≠ .idle then .refused .writeMemoryNotIdle
  else if Config.memSize < a.toNat + bytes.length then .refused .writeMemoryPastEnd
  else .next (s.storeBytes a bytes)

/-- Invoking `run` (rule R100): `Idle` becomes `Running`; no effect in any other run state (row U15). -/
def startRun (s : State) : State :=
  match s.runState with
  | .idle => s.setRunState .running
  | .running => s
  | .halted => s
  | .faulted => s

/-- The run has ended (rule R112). -/
def State.ended (s : State) : Bool := decide (s.runState = .halted) || decide (s.runState = .faulted)

/-- At most `fuel` steps toward the end of the run: the final state, or none if the fuel did not reach it (rules R106, R112,
row U17). -/
def runToEnd (ops : Opcodes) : Nat → State → Option State
  | 0, s => if s.ended then some s else none
  | fuel + 1, s =>
    if s.ended then some s
    else
      match controllerStep ops s with
      | .next t => runToEnd ops fuel t
      | .fault _ => none
      | .refused _ => none

/-- `run()` as the host calls it (rules R28, R100, R112): start if `Idle`, and step to the end of the run. -/
def invokeRun (ops : Opcodes) (fuel : Nat) (s : State) : Option State := runToEnd ops fuel (startRun s)

end Sys2Proof.Machine
end

