-- ==== Sys2Proof/Machine/Signals.lean ====
section
/-! DEFINITION. The signals of the hardware rendering (rule R29): one clock edge, and the output ports. -/

namespace Sys2Proof.Machine

/-- The input signals sampled at one rising edge of `clk` (rule R29). -/
structure InPins where
  rst : Bool
  run : Bool
  ldWe : Bool
  ldAddr : Addr
  ldData : Byte
deriving DecidableEq, Repr

/-- The output signals (rule R29). `out` is `out_valid` with `out_data`: a byte when valid, none when not (log entry 7). -/
structure OutPins where
  out : Option Byte
  halted : Bool
  faulted : Bool
  faultCause : BitVec 3
  faultOpcode : Byte
  faultAddr : Addr
  faultOperand : Byte
deriving DecidableEq, Repr

/-- The state after one rising edge of `clk` (rules R29, R109). Reset goes before everything else; in `Idle` the loader port
and `run` act together; in `Running` one step is taken; otherwise nothing happens. DEDUCED, unsafe: log entry 7. -/
def clockEdge (ops : Opcodes) (p : InPins) (s : State) : State :=
  if p.rst then construct s
  else
    match s.runState with
    | .idle =>
      let t := if p.ldWe then s.store p.ldAddr p.ldData else s
      if p.run then startRun t else t
    | .running =>
      match controllerStep ops s with
      | .next t => t
      | .fault _ => s
      | .refused _ => s
    | .halted => s
    | .faulted => s

/-- The byte a PRN presents during its step (rules R27, R29, R122). It is a function of the state alone, so it shows the byte
of the PRN at `pc` also in a cycle where `rst` is 1, although `clockEdge` then resets and that PRN is not executed: rule R29
does not say what `out_valid` is there. DESIGN CHOICE, unsafe: log entry 11. -/
def outPort (ops : Opcodes) (s : State) : Option Byte :=
  match s.runState with
  | .running =>
    match decode ops (fetch ops s) with
    | .ok (.prn r, _) => (regOf r).map s.reg
    | _ => none
  | .idle => none
  | .halted => none
  | .faulted => none

/-- The output signals in a state (rule R29), whatever the input pins are. DESIGN CHOICE, unsafe for `out` in a cycle where
`rst` is 1: log entry 11. -/
def outPins (ops : Opcodes) (s : State) : OutPins where
  out := outPort ops s
  halted := decide (s.runState = .halted)
  faulted := decide (s.runState = .faulted)
  faultCause := s.faultCause
  faultOpcode := s.faultOpcode
  faultAddr := s.faultAddr
  faultOperand := s.faultOperand

end Sys2Proof.Machine
end

