-- ==== Sys2Proof/Safety.lean ====
section
/-! DEFINITION. The terms the claims use: what stays the same between two states, what a faulted state looks like, and the
invariant of the machine. -/

namespace Sys2Proof.Machine

/-- Every general register outside `written` holds what it held. -/
def SameRegsBut (written : List Reg) (s t : State) : Prop := ∀ q, q ∉ written → t.reg q = s.reg q

/-- Every memory cell outside `stored` reads as it read. -/
def SameMemBut (stored : List Addr) (s t : State) : Prop := ∀ a, a ∉ stored → t.load a = s.load a

/-- The fault record, and the model's free-value index beside it, are the same. -/
def SameRecord (s t : State) : Prop :=
  t.faultCause = s.faultCause ∧ t.faultOpcode = s.faultOpcode ∧ t.faultAddr = s.faultAddr ∧
    t.faultOperand = s.faultOperand ∧ t.freeCount = s.freeCount

/-- `t` is `s` after the entry of a fatal condition with this cause, this opcode byte and, where the condition records one,
this operand byte (rules R22, R156): nothing but the run state and the record differs. -/
def FaultedFrom (s : State) (cause : FaultCause) (opcode : Byte) (operand : Option Byte) (t : State) : Prop :=
  t.runState = .faulted ∧ t.faultCause = cause.code ∧ t.faultOpcode = opcode ∧ t.faultAddr = s.pc ∧
    (∀ o, operand = some o → t.faultOperand = o) ∧
    t.pc = s.pc ∧ SameRegsBut [] s t ∧ SameMemBut [] s t ∧ t.fl = s.fl ∧ t.output = s.output

/-- FL holds one of its four values (rule R20). -/
def FlLegal (s : State) : Prop := s.fl = 0x00 ∨ s.fl = 0x01 ∨ s.fl = 0x02 ∨ s.fl = 0x04

/-- In `Faulted` the record describes the instruction at `pc`: either its opcode is unrecognised, or it is recognised and the
recorded operand names no register (rules R22, R150, R151, R154, R156). -/
def RecordLegal (ops : Opcodes) (s : State) : Prop :=
  s.runState = .faulted →
    s.faultAddr = s.pc ∧ s.faultOpcode = s.load s.pc ∧
      ((s.faultCause = FaultCause.unknownInstruction.code ∧ dispatch ops s.faultOpcode = none) ∨
        (s.faultCause = FaultCause.outOfBounds.code ∧ (dispatch ops s.faultOpcode).isSome ∧ 8 ≤ s.faultOperand.toNat))

/-- The invariant of the machine: memory is in canonical form, FL is one of its four values, and in `Faulted` the record
describes the instruction at `pc`. -/
def Inv (ops : Opcodes) (s : State) : Prop := s.mem.wf = true ∧ FlLegal s ∧ RecordLegal ops s

/-- The operand byte that names register `r` (rule R64). -/
def regByte (r : Reg) : Byte := BitVec.ofNat 8 r.val

/-- The instruction a step would run: what the decoder reads from the bytes fetched at `pc`, if it reads one. -/
def instrAt (ops : Opcodes) (s : State) : Option Instr :=
  match decode ops (fetch ops s) with
  | .error _ => none
  | .ok (i, _) => some i

/-- The last column of rule R13's table: `i` may write register `q`. -/
def MayWriteReg (q : Reg) : Instr → Prop
  | .hlt => False
  | .ret => q = Config.spIndex
  | .push _ => q = Config.spIndex
  | .pop r => r = regByte q ∨ q = Config.spIndex
  | .prn _ => False
  | .call _ => q = Config.spIndex
  | .ldi r _ => r = regByte q
  | .mul a _ => a = regByte q
  | .cmp _ _ => False

/-- Two states agree on everything a step can depend on: the registers, `pc`, memory and the run state. -/
def SameCourse (s t : State) : Prop := t.regs = s.regs ∧ t.pc = s.pc ∧ t.mem = s.mem ∧ t.runState = s.runState

/-- The bytes of `i` stand in memory from `pc` on, at addresses modulo 256 (rules R17, R43). -/
def InstrAtPc (ops : Opcodes) (i : Instr) (s : State) : Prop :=
  (List.range (encode ops i).length).map s.codeByte = encode ops i

end Sys2Proof.Machine
end

