-- ==== Sys2Proof/Certificates/Slice0/Obligations.lean ====
section
/-! DEFINITION. The statements for the provers. Each docstring names the rule of spec/ it formalises, or says that the
statement is derived and from what. `controllerStep ops` is the machine's step for ANY legal choice of the six open opcodes
(rule R67); `step` is `controllerStep defaultOpcodes`. -/

open Sys2Proof Sys2Proof.Machine

/-! Encoding and decoding -/

/-- Rule R66: the three opcode values the source gives, with their operand counts, and the source's six bytes read one
instruction after the other. -/
def Obligations.SourceOpcodesDecode : Prop :=
  opLdi = 0x82 ∧ opPrn = 0x47 ∧ opHlt = 0x01 ∧
    operandField opLdi = 2 ∧ operandField opPrn = 1 ∧ operandField opHlt = 0 ∧
    ∀ ops : Opcodes,
      decode ops [0x82, 0x00, 0x08, 0x47, 0x00, 0x01] = .ok (.ldi 0 8, [0x47, 0x00, 0x01]) ∧
        decode ops [0x47, 0x00, 0x01] = .ok (.prn 0, [0x01]) ∧ decode ops [0x01] = .ok (.hlt, [])

/-- Derived from rule R68's table with the default opcodes (which the spec marks as general knowledge: log entry 1): one word
of each instruction, written out in bits. -/
def Obligations.DefaultWordsDecode : Prop :=
  decode defaultOpcodes [0b00000001] = .ok (.hlt, []) ∧
    decode defaultOpcodes [0b00010001] = .ok (.ret, []) ∧
    decode defaultOpcodes [0b01000101, 0b00000110] = .ok (.push 6, []) ∧
    decode defaultOpcodes [0b01000110, 0b00000101] = .ok (.pop 5, []) ∧
    decode defaultOpcodes [0b01000111, 0b00000100] = .ok (.prn 4, []) ∧
    decode defaultOpcodes [0b01010000, 0b00000011] = .ok (.call 3, []) ∧
    decode defaultOpcodes [0b10000010, 0b00000010, 0b11111111] = .ok (.ldi 2 255, []) ∧
    decode defaultOpcodes [0b10100010, 0b00000001, 0b00000010] = .ok (.mul 1 2, []) ∧
    decode defaultOpcodes [0b10100111, 0b00000111, 0b00000000] = .ok (.cmp 7 0, [])

/-- Derived from rules R60 to R68: for every legal choice of the opcodes and every instruction, with every operand byte at
every value, the decoder reads the encoding back, whatever bytes follow it. -/
def Obligations.DecodeOfEncode : Prop :=
  ∀ (ops : Opcodes) (i : Instr) (rest : List Byte), decode ops (encode ops i ++ rest) = .ok (i, rest)

/-- Derived from rules R60 to R71: each encoding has one meaning, so bytes that decode ARE the encoding of what they decode
to, followed by the bytes left over. -/
def Obligations.DecodedBytesAreTheEncoding : Prop :=
  ∀ (ops : Opcodes) (bytes rest : List Byte) (i : Instr),
    decode ops bytes = .ok (i, rest) → bytes = encode ops i ++ rest

/-- Rule R60, and the lookup of rule R65: a byte selects an instruction exactly if it is one of the nine opcodes, all eight
bits compared; the operand count of a recognised opcode is its bits 7 to 6, at most 2, and equals the instruction's operand
count; so the instruction is 1, 2 or 3 bytes long. -/
def Obligations.OnlyNineOpcodesRecognised : Prop :=
  ∀ (ops : Opcodes) (op : Byte) (bytes : List Byte),
    (decode ops (op :: bytes) = .error (.unknownInstruction op) ↔ ∀ h : Handler, op ≠ opcodeOf ops h) ∧
      ∀ (i : Instr) (rest : List Byte), decode ops (op :: bytes) = .ok (i, rest) →
        op = opcodeOf ops i.handler ∧ i.operands.length = operandField op ∧ operandField op ≤ 2 ∧
          (op :: bytes).length = 1 + operandField op + rest.length

/-- Derived from rules R17, R43, R102 and R103: the instruction a step runs is `i` exactly if the bytes of `i` stand in
memory from `pc` upward, modulo 256. -/
def Obligations.InstrAtPcIsDecoded : Prop :=
  ∀ (ops : Opcodes) (i : Instr) (s : State), instrAt ops s = some i ↔ InstrAtPc ops i s

/-! The step -/

/-- Derived from rule R101: where the bytes of `i` stand at `pc`, a step in `Running` is `exec` of `i`. -/
def Obligations.StepRunsDecodedInstruction : Prop :=
  (∀ (ops : Opcodes) (i : Instr) (s : State),
    s.runState = .running → InstrAtPc ops i s → controllerStep ops s = exec i s) ∧
  ∀ (i : Instr) (s : State), s.runState = .running → InstrAtPc defaultOpcodes i s → step s = exec i s

/-- Derived from rule R101: in `Running` a step always answers a next state. -/
def Obligations.StepAnswersWhileRunning : Prop :=
  ∀ (ops : Opcodes) (s : State), s.runState = .running → ∃ t, controllerStep ops s = .next t

/-- Derived from rule R106 (the names of the three stops are the model's): no step in `Idle`, `Halted`, `Faulted`. -/
def Obligations.NoStepOutsideRunning : Prop :=
  ∀ (ops : Opcodes) (s : State),
    (s.runState = .idle → controllerStep ops s = .fault .stuckIdle) ∧
      (s.runState = .halted → controllerStep ops s = .fault .stuckHalted) ∧
      (s.runState = .faulted → controllerStep ops s = .fault .stuckFaulted)

/-- Rule R151: a byte at `pc` that is no opcode ends the run with `UnknownInstruction`; the opcode byte and its address are
recorded, and nothing else changes. -/
def Obligations.UnknownOpcodeFaults : Prop :=
  ∀ (ops : Opcodes) (s : State), s.runState = .running → (∀ h : Handler, s.load s.pc ≠ opcodeOf ops h) →
    ∃ t, controllerStep ops s = .next t ∧ FaultedFrom s .unknownInstruction (s.load s.pc) none t

/-- Derived from rules R64, R154 and R158 (the spec's decisions D4 and D20): the first register operand above 7 ends the run
with `OutOfBounds`; opcode, address and that operand are recorded, and nothing else changes. -/
def Obligations.OutOfBoundsOperandFaults : Prop :=
  ∀ (ops : Opcodes) (s : State) (i : Instr) (o : Byte), s.runState = .running → InstrAtPc ops i s →
    i.regOperands.find? (fun b => !namesReg b) = some o →
    ∃ t, controllerStep ops s = .next t ∧ FaultedFrom s .outOfBounds (opcodeOf ops i.handler) (some o) t

/-- Derived from rules R21, R106, R108, R156 and R168: how a step leaves the run state. -/
def Obligations.RunStateAfterStep : Prop :=
  ∀ (ops : Opcodes) (s t : State), controllerStep ops s = .next t →
    s.runState = .running ∧
      (t.runState = .halted ↔ instrAt ops s = some .hlt) ∧
      (t.runState = .faulted ↔ ∀ i, instrAt ops s = some i → i.wellFormed = false) ∧
      t.runState ≠ .idle

/-- Rule R16: how each instruction leaves `pc`, and that one that faults leaves it. -/
def Obligations.PcAfterStep : Prop :=
  ∀ (ops : Opcodes) (s t : State), controllerStep ops s = .next t →
    (t.runState = .faulted → t.pc = s.pc) ∧
      ∀ i, t.runState ≠ .faulted → instrAt ops s = some i →
        match i with
        | .ldi _ _ => t.pc = s.pc + 3
        | .mul _ _ => t.pc = s.pc + 3
        | .cmp _ _ => t.pc = s.pc + 3
        | .prn _ => t.pc = s.pc + 2
        | .push _ => t.pc = s.pc + 2
        | .pop _ => t.pc = s.pc + 2
        | .hlt => t.pc = s.pc + 1
        | .call r => ∃ q : Reg, r = regByte q ∧ t.pc = t.reg q
        | .ret => t.pc = s.load s.sp

/-- Rule R104: after every instruction but CALL and RET, HLT included, `pc` goes on by one more than bits 7 to 6 of the opcode
byte fetched; after CALL and RET it is the value they wrote, also where that is the address they stand at; an instruction that
faults is not advanced over. -/
def Obligations.AdvanceByOperandCount : Prop :=
  ∀ (ops : Opcodes) (s t : State), controllerStep ops s = .next t →
    (t.runState = .faulted → t.pc = s.pc) ∧
      (∀ i, t.runState ≠ .faulted → instrAt ops s = some i → i.handler ≠ .call → i.handler ≠ .ret →
        t.pc = s.pc + BitVec.ofNat 8 (1 + operandField (s.load s.pc))) ∧
      (∀ r : Reg, instrAt ops s = some (.call (regByte r)) → t.pc = s.decSp.reg r) ∧
      (instrAt ops s = some .ret → t.pc = s.load s.sp)

/-- Rule R19: CMP is the only writer of FL, which it overwrites whole, and no instruction reads FL: a step from the same state
with any other FL goes the same way. -/
def Obligations.FlWrittenByCmpReadByNone : Prop :=
  ∀ (ops : Opcodes) (s t : State) (v : Byte), controllerStep ops s = .next t →
    (∃ a b : Reg, instrAt ops s = some (.cmp (regByte a) (regByte b)) ∧
      controllerStep ops (s.setFl v) = .next t) ∨
    ((∀ a b : Reg, instrAt ops s ≠ some (.cmp (regByte a) (regByte b))) ∧ t.fl = s.fl ∧
      controllerStep ops (s.setFl v) = .next (t.setFl v))

/-- Derived from rules R27 and R122: PRN appends one byte to the output channel, and nothing else touches it. -/
def Obligations.OutputGrowsOnlyByPrn : Prop :=
  ∀ (ops : Opcodes) (s t : State), controllerStep ops s = .next t →
    (∀ r : Reg, instrAt ops s = some (.prn (regByte r)) → t.output = s.output ++ [s.reg r]) ∧
      ((∀ r : Reg, instrAt ops s ≠ some (.prn (regByte r))) → t.output = s.output)

/-- Derived from rules R41 and R46: a step changes a cell only by PUSH or CALL, and only the cell at the new stack pointer. -/
def Obligations.MemoryChangedOnlyByPushCall : Prop :=
  ∀ (ops : Opcodes) (s t : State), s.mem.wf = true → controllerStep ops s = .next t →
    ∀ a : Addr, t.load a ≠ s.load a →
      a = s.decSp.sp ∧ t.sp = a ∧ ∃ r : Reg, instrAt ops s = some (.push (regByte r)) ∨ instrAt ops s = some (.call (regByte r))

/-- Derived from rule R13's table: a register that a step changes is one that the instruction at `pc` writes, that
instruction is well formed, and the step did not fault: a faulting step changes no register. -/
def Obligations.RegistersWrittenPerInstruction : Prop :=
  ∀ (ops : Opcodes) (s t : State), controllerStep ops s = .next t →
    ∀ q : Reg, t.reg q ≠ s.reg q →
      t.runState ≠ .faulted ∧ ∃ i, instrAt ops s = some i ∧ i.wellFormed = true ∧ MayWriteReg q i

/-- Derived from rules R150, R156 and R157: a program can cause only `UnknownInstruction` and `OutOfBounds`, and the faulting
instruction has had no effect but the fault entry. -/
def Obligations.OnlyTwoFaultsReachable : Prop :=
  ∀ (ops : Opcodes) (s t : State), controllerStep ops s = .next t → t.runState = .faulted →
    FaultedFrom s .unknownInstruction (s.load s.pc) none t ∨
      ∃ o : Byte, 8 ≤ o.toNat ∧ FaultedFrom s .outOfBounds (s.load s.pc) (some o) t

/-! The nine instructions: encoding, completion with the effect and the frame, and where an operand names no register -/

/-- Derived from rule R108; that `pc` goes past the HLT is the spec's decision D12. -/
def Obligations.HltHalts : Prop :=
  (∀ ops, encode ops .hlt = [0x01]) ∧
    ∀ s : State, ∃ t, exec .hlt s = .next t ∧ t.runState = .halted ∧ t.pc = s.pc + 1 ∧
      SameRegsBut [] s t ∧ t.fl = s.fl ∧ SameRecord s t ∧ SameMemBut [] s t ∧ t.output = s.output

/-- Rule R142. -/
def Obligations.RetReturns : Prop :=
  (∀ ops, encode ops .ret = [ops.ret]) ∧ defaultOpcodes.ret = 0x11 ∧
    ∀ s : State, ∃ t, exec .ret s = .next t ∧ t.pc = s.load s.sp ∧ t.sp = s.sp + 1 ∧
      SameRegsBut [7] s t ∧ t.fl = s.fl ∧ t.runState = s.runState ∧ SameRecord s t ∧ SameMemBut [] s t ∧
      t.output = s.output

/-- Rule R131: the address stored to is the new stack pointer `s.decSp.sp`; with r = 7 the byte stored is that address. -/
def Obligations.PushStores : Prop :=
  (∀ ops r, encode ops (.push r) = [ops.push, r]) ∧ defaultOpcodes.push = 0x45 ∧
    (∀ (r : Reg) (s : State), s.mem.wf = true → ∃ t, exec (.push (regByte r)) s = .next t ∧
      s.decSp.sp = s.sp - 1 ∧ t.sp = s.sp - 1 ∧
      t.load s.decSp.sp = (if r = 7 then s.sp - 1 else s.reg r) ∧ SameMemBut [s.decSp.sp] s t ∧
      SameRegsBut [7] s t ∧ t.pc = s.pc + 2 ∧ t.fl = s.fl ∧ t.runState = s.runState ∧ SameRecord s t ∧
      t.output = s.output) ∧
    ∀ (o : Byte) (s : State), 8 ≤ o.toNat → ∃ t, exec (.push o) s = .next t ∧
      FaultedFrom s .outOfBounds (s.load s.pc) (some o) t

/-- Rule R132: with r = 7 the loaded byte is incremented. -/
def Obligations.PopLoads : Prop :=
  (∀ ops r, encode ops (.pop r) = [ops.pop, r]) ∧ defaultOpcodes.pop = 0x46 ∧
    (∀ (r : Reg) (s : State), ∃ t, exec (.pop (regByte r)) s = .next t ∧
      (r ≠ 7 → t.reg r = s.load s.sp ∧ t.sp = s.sp + 1) ∧ (r = 7 → t.sp = s.load s.sp + 1) ∧
      SameRegsBut [r, 7] s t ∧ t.pc = s.pc + 2 ∧ t.fl = s.fl ∧ t.runState = s.runState ∧ SameRecord s t ∧
      SameMemBut [] s t ∧ t.output = s.output) ∧
    ∀ (o : Byte) (s : State), 8 ≤ o.toNat → ∃ t, exec (.pop o) s = .next t ∧
      FaultedFrom s .outOfBounds (s.load s.pc) (some o) t

/-- Rule R122. -/
def Obligations.PrnEmits : Prop :=
  (∀ ops r, encode ops (.prn r) = [0x47, r]) ∧
    (∀ (r : Reg) (s : State), ∃ t, exec (.prn (regByte r)) s = .next t ∧ t.output = s.output ++ [s.reg r] ∧
      t.pc = s.pc + 2 ∧ SameRegsBut [] s t ∧ t.fl = s.fl ∧ t.runState = s.runState ∧ SameRecord s t ∧
      SameMemBut [] s t) ∧
    ∀ (o : Byte) (s : State), 8 ≤ o.toNat → ∃ t, exec (.prn o) s = .next t ∧
      FaultedFrom s .outOfBounds (s.load s.pc) (some o) t

/-- Rule R141: the address stored to is the new stack pointer `s.decSp.sp`; with r = 7 the target is that address. -/
def Obligations.CallPushesReturnAddress : Prop :=
  (∀ ops r, encode ops (.call r) = [ops.call, r]) ∧ defaultOpcodes.call = 0x50 ∧
    (∀ (r : Reg) (s : State), s.mem.wf = true → ∃ t, exec (.call (regByte r)) s = .next t ∧
      s.decSp.sp = s.sp - 1 ∧ t.sp = s.sp - 1 ∧ t.load s.decSp.sp = s.pc + 2 ∧ SameMemBut [s.decSp.sp] s t ∧
      t.pc = (if r = 7 then s.sp - 1 else s.reg r) ∧ SameRegsBut [7] s t ∧ t.fl = s.fl ∧
      t.runState = s.runState ∧ SameRecord s t ∧ t.output = s.output) ∧
    ∀ (o : Byte) (s : State), 8 ≤ o.toNat → ∃ t, exec (.call o) s = .next t ∧
      FaultedFrom s .outOfBounds (s.load s.pc) (some o) t

/-- Rule R121. -/
def Obligations.LdiLoadsImmediate : Prop :=
  (∀ ops r imm, encode ops (.ldi r imm) = [0x82, r, imm]) ∧
    (∀ (r : Reg) (imm : Byte) (s : State), ∃ t, exec (.ldi (regByte r) imm) s = .next t ∧ t.reg r = imm ∧
      SameRegsBut [r] s t ∧ t.pc = s.pc + 3 ∧ t.fl = s.fl ∧ t.runState = s.runState ∧ SameRecord s t ∧
      SameMemBut [] s t ∧ t.output = s.output) ∧
    ∀ (o imm : Byte) (s : State), 8 ≤ o.toNat → ∃ t, exec (.ldi o imm) s = .next t ∧
      FaultedFrom s .outOfBounds (s.load s.pc) (some o) t

/-- Rule R90: the low 8 bits of the unsigned product; the first operand is checked first. -/
def Obligations.MulMultiplies : Prop :=
  (∀ ops a b, encode ops (.mul a b) = [ops.mul, a, b]) ∧ defaultOpcodes.mul = 0xA2 ∧
    (∀ (a b : Reg) (s : State), ∃ t, exec (.mul (regByte a) (regByte b)) s = .next t ∧
      (t.reg a).toNat = ((s.reg a).toNat * (s.reg b).toNat) % 256 ∧ SameRegsBut [a] s t ∧ t.pc = s.pc + 3 ∧
      t.fl = s.fl ∧ t.runState = s.runState ∧ SameRecord s t ∧ SameMemBut [] s t ∧ t.output = s.output) ∧
    (∀ (o b : Byte) (s : State), 8 ≤ o.toNat → ∃ t, exec (.mul o b) s = .next t ∧
      FaultedFrom s .outOfBounds (s.load s.pc) (some o) t) ∧
    ∀ (a : Reg) (o : Byte) (s : State), 8 ≤ o.toNat → ∃ t, exec (.mul (regByte a) o) s = .next t ∧
      FaultedFrom s .outOfBounds (s.load s.pc) (some o) t

/-- Rule R91: FL is overwritten by the unsigned comparison; the first operand is checked first. -/
def Obligations.CmpCompares : Prop :=
  (∀ ops a b, encode ops (.cmp a b) = [ops.cmp, a, b]) ∧ defaultOpcodes.cmp = 0xA7 ∧
    (∀ (a b : Reg) (s : State), ∃ t, exec (.cmp (regByte a) (regByte b)) s = .next t ∧
      (s.reg a = s.reg b → t.fl = 0x01) ∧ ((s.reg b).toNat < (s.reg a).toNat → t.fl = 0x02) ∧
      ((s.reg a).toNat < (s.reg b).toNat → t.fl = 0x04) ∧ SameRegsBut [] s t ∧ t.pc = s.pc + 3 ∧
      t.runState = s.runState ∧ SameRecord s t ∧ SameMemBut [] s t ∧ t.output = s.output) ∧
    (∀ (o b : Byte) (s : State), 8 ≤ o.toNat → ∃ t, exec (.cmp o b) s = .next t ∧
      FaultedFrom s .outOfBounds (s.load s.pc) (some o) t) ∧
    ∀ (a : Reg) (o : Byte) (s : State), 8 ≤ o.toNat → ∃ t, exec (.cmp (regByte a) o) s = .next t ∧
      FaultedFrom s .outOfBounds (s.load s.pc) (some o) t

/-! The ALU block -/

/-- Derived from rules R80 to R83 and R88 (truncation is the spec's decision D1): ADD, SUB and MUL are exact modulo 256, write
the first register and leave everything else. -/
def Obligations.AluArithmeticWraps : Prop :=
  ∀ (a b : Reg) (s : State),
    (∃ t, alu .add a b s = .ok t ∧ (t.reg a).toNat = ((s.reg a).toNat + (s.reg b).toNat) % 256 ∧
      SameRegsBut [a] s t ∧ t = { s with regs := t.regs }) ∧
    (∃ t, alu .sub a b s = .ok t ∧ ((t.reg a).toNat : Int) = ((s.reg a).toNat - (s.reg b).toNat : Int) % 256 ∧
      SameRegsBut [a] s t ∧ t = { s with regs := t.regs }) ∧
    ∃ t, alu .mul a b s = .ok t ∧ (t.reg a).toNat = ((s.reg a).toNat * (s.reg b).toNat) % 256 ∧
      SameRegsBut [a] s t ∧ t = { s with regs := t.regs }

/-- Derived from rules R84, R153 and R156 (the spec's decisions D5 and D6): DIV is the unsigned quotient, and a zero divisor
raises `DivisionByZero` with nothing but the fault entry. -/
def Obligations.AluDivides : Prop :=
  ∀ (a b : Reg) (s : State),
    (s.reg b ≠ 0 → ∃ t, alu .div a b s = .ok t ∧ (t.reg a).toNat = (s.reg a).toNat / (s.reg b).toNat ∧
      SameRegsBut [a] s t ∧ t = { s with regs := t.regs }) ∧
    (s.reg b = 0 → ∃ t, afterAlu 2 s (alu .div a b s) = .next t ∧
      FaultedFrom s .divisionByZero (s.load s.pc) none t)

/-- Rule R85: CMP sets exactly one flag bit, by the unsigned relation of the two values, clears all others, and writes no
register. -/
def Obligations.AluCompareSetsOneFlag : Prop :=
  ∀ (a b : Reg) (s : State), ∃ t, alu .cmp a b s = .ok t ∧ t = { s with fl := t.fl } ∧
    (t.flE = true ↔ s.reg a = s.reg b) ∧ (t.flG = true ↔ (s.reg b).toNat < (s.reg a).toNat) ∧
    (t.flL = true ↔ (s.reg a).toNat < (s.reg b).toNat) ∧ (t.fl = 0x01 ∨ t.fl = 0x02 ∨ t.fl = 0x04)

/-- Derived from rule R89: the same register twice. -/
def Obligations.AluSameRegisterTwice : Prop :=
  ∀ (r : Reg) (s : State),
    alu .add r r s = .ok (s.setReg r (2 * s.reg r)) ∧ alu .sub r r s = .ok (s.setReg r 0) ∧
      alu .mul r r s = .ok (s.setReg r (s.reg r * s.reg r)) ∧
      (s.reg r ≠ 0 → alu .div r r s = .ok (s.setReg r 1)) ∧
      (s.reg r = 0 → alu .div r r s = .error .divisionByZero) ∧ alu .cmp r r s = .ok (s.setFl 0x01)

/-- Derived from rules R80, R86, R152 and R156: the five names select the five operations, and any other name raises
`UnsupportedOperation` with nothing but the fault entry. -/
def Obligations.AluOtherNameUnsupported : Prop :=
  ∀ (a b : Reg) (s : State),
    aluNamed "ADD" a b s = alu .add a b s ∧ aluNamed "SUB" a b s = alu .sub a b s ∧
      aluNamed "MUL" a b s = alu .mul a b s ∧ aluNamed "DIV" a b s = alu .div a b s ∧
      aluNamed "CMP" a b s = alu .cmp a b s ∧
      ∀ name : String, name ∉ ["ADD", "SUB", "MUL", "DIV", "CMP"] →
        ∃ t, afterAlu 2 s (aluNamed name a b s) = .next t ∧
          FaultedFrom s .unsupportedOperation (s.load s.pc) none t

/-! Memory -/

/-- Rule R42: after any sequence of writes from the reset memory, a cell reads as its most recent write, and as 0x00 if it was
never written. -/
def Obligations.MemoryReadsLatestWrite : Prop :=
  ∀ (ws : List (Addr × Byte)) (a : Addr),
    (ws.foldl (fun m w => m.write w.1 w.2) State.reset.mem).read a =
      ((ws.reverse.find? fun w => decide (w.1 = a)).map Prod.snd).getD 0x00

/-- Derived from rule R42 and from the model's canonical form: memories in canonical form that read the same are the same. -/
def Obligations.MemoryIsCanonical : Prop :=
  ∀ m m' : Memory, m.wf = true → m'.wf = true → (∀ a, m.read a = m'.read a) → m = m'

/-- Derived from rules R17 and R48 (the spec's decision D2): the stack pointer wraps at both ends of memory, a return address
wraps, and so do the addresses operand bytes are read at. -/
def Obligations.AddressesWrap : Prop :=
  (∀ (r : Reg) (s : State), r ≠ 7 → s.mem.wf = true → s.sp = 0x00 →
    ∃ t, exec (.push (regByte r)) s = .next t ∧ t.sp = 0xFF ∧ t.load 0xFF = s.reg r) ∧
  (∀ (r : Reg) (s : State), r ≠ 7 → s.sp = 0xFF →
    ∃ t, exec (.pop (regByte r)) s = .next t ∧ t.sp = 0x00 ∧ t.reg r = s.load 0xFF) ∧
  (∀ (r : Reg) (s : State), s.mem.wf = true → s.pc = 0xFE →
    ∃ t, exec (.call (regByte r)) s = .next t ∧ t.load t.sp = 0x00) ∧
  ∀ s : State, s.pc = 0xFF → s.codeByte 0 = s.load 0xFF ∧ s.codeByte 1 = s.load 0x00 ∧ s.codeByte 2 = s.load 0x01

/-! The stack laws -/

/-- Derived from rules R133 and R134: PUSH a, then, with the stack pointer and the pushed cell as PUSH left them, POP b: the
register is copied and the stack pointer is back; PUSH R7 then POP R7 leaves R7 as it was. -/
def Obligations.PushPopRoundTrip : Prop :=
  ∀ (a b : Reg) (s : State), s.mem.wf = true → ∃ s₁, exec (.push (regByte a)) s = .next s₁ ∧
    ∀ u : State, u.sp = s₁.sp → u.load u.sp = s₁.load s₁.sp → ∃ t, exec (.pop (regByte b)) u = .next t ∧
      SameRegsBut [b, 7] u t ∧
      (b ≠ 7 → t.sp = s.sp) ∧ (a ≠ 7 → b ≠ 7 → t.reg b = s.reg a) ∧ (a = 7 → b = 7 → t.sp = s.sp)

/-- Derived from rule R144: CALL, then, with the stack pointer and the pushed cell as CALL left them, RET: control is back at
`call_address + 2`, and the stack pointer is as before the CALL. -/
def Obligations.CallReturnLaw : Prop :=
  ∀ (r : Reg) (s : State), s.mem.wf = true → ∃ s₁, exec (.call (regByte r)) s = .next s₁ ∧
    ∀ u : State, u.sp = s₁.sp → u.load u.sp = s₁.load s₁.sp → ∃ t, exec .ret u = .next t ∧
      t.pc = s.pc + 2 ∧ t.sp = s.sp ∧ SameRegsBut [7] u t

/-- Derived from rule R142's corner case: PUSH Rn followed by RET jumps to the address in Rn with R7 restored. -/
def Obligations.PushThenRetJumps : Prop :=
  ∀ (r : Reg) (s : State), r ≠ 7 → s.mem.wf = true → ∃ s₁, exec (.push (regByte r)) s = .next s₁ ∧
    ∃ t, exec .ret s₁ = .next t ∧ t.pc = s.reg r ∧ SameRegsBut [] s t

/-- Derived from rules R52 and R53 (the spec's decision D9): a PUSH that stores onto its own operand byte uses the operand it
fetched, and a later fetch at its address sees the stored byte. -/
def Obligations.PushOverItsOwnOperand : Prop :=
  ∀ (ops : Opcodes) (r : Reg) (s : State), r ≠ 7 → s.mem.wf = true → s.runState = .running →
    InstrAtPc ops (.push (regByte r)) s → s.sp = s.pc + 2 →
    ∃ t, controllerStep ops s = .next t ∧ t.pc = s.pc + 2 ∧ t.load (s.pc + 1) = s.reg r ∧
      InstrAtPc ops (.push (s.reg r)) (t.setPc s.pc)

/-! Reset, loading, running, signals -/

/-- Derived from rules R30 and R180: the reset state. That FL is 0x00 and the run state Idle are the spec's decisions D3 and
D10; the fault record, which rule R30 leaves unspecified, is not stated. -/
def Obligations.ResetState : Prop :=
  (∀ a, State.reset.load a = 0x00) ∧ (∀ r : Reg, r ≠ 7 → State.reset.reg r = 0x00) ∧ State.reset.reg 7 = 0xF4 ∧
    State.reset.pc = 0x00 ∧ State.reset.fl = 0x00 ∧ State.reset.runState = .idle ∧ State.reset.output = []

/-- Derived from rule R100 (no effect outside `Idle` is the spec's decision D18). -/
def Obligations.RunStartsOnlyFromIdle : Prop :=
  ∀ s : State, (s.runState = .idle → startRun s = { s with runState := .running }) ∧
    (s.runState ≠ .idle → startRun s = s)

/-- Derived from rules R182 and R183: in `Idle`, bytes that end at or below address 255 are stored each at its address, and
nothing else changes; a program written at 0 after reset stands there with 0x00 in every other cell. -/
def Obligations.WriteMemoryStores : Prop :=
  (∀ (a : Addr) (bytes : List Byte) (s : State), s.mem.wf = true → s.runState = .idle →
    a.toNat + bytes.length ≤ 256 → ∃ t, writeMemory a bytes s = .next t ∧ t = { s with mem := t.mem } ∧
      ∀ x : Addr, t.load x = if a.toNat ≤ x.toNat then bytes.getD (x.toNat - a.toNat) (s.load x) else s.load x) ∧
  ∀ bytes : List Byte, bytes.length ≤ 256 → ∃ t, writeMemory 0 bytes State.reset = .next t ∧
    ∀ x : Addr, t.load x = bytes.getD x.toNat 0x00

/-- Derived from rule R182 (the spec's decision D16; the names of the refusals are the model's). -/
def Obligations.WriteMemoryRefusedOtherwise : Prop :=
  ∀ (a : Addr) (bytes : List Byte) (s : State),
    (s.runState ≠ .idle → writeMemory a bytes s = .refused .writeMemoryNotIdle) ∧
      (s.runState = .idle → 256 < a.toNat + bytes.length → writeMemory a bytes s = .refused .writeMemoryPastEnd)

/-- Derived from rules R100, R106, R112 and R163 and row U17 (the fuel is the model's, log entry 9). A run is its steps: an
ended state is answered at once, a state that has not ended is never the answer of no steps, each step uses one unit of fuel,
and `run` starts an `Idle` machine and then goes on as it would have. A run that ends does so in `Halted` or `Faulted`, more
fuel gives the same final state, and that state takes no step. -/
def Obligations.RunEndsAndStays : Prop :=
  (∀ (ops : Opcodes) (fuel : Nat) (s : State), s.runState = .halted ∨ s.runState = .faulted →
    runToEnd ops fuel s = some s) ∧
  (∀ (ops : Opcodes) (s : State), s.runState = .idle ∨ s.runState = .running → runToEnd ops 0 s = none) ∧
  (∀ (ops : Opcodes) (fuel : Nat) (s t : State), controllerStep ops s = .next t →
    runToEnd ops (fuel + 1) s = runToEnd ops fuel t) ∧
  (∀ (ops : Opcodes) (fuel : Nat) (s : State),
    (s.runState = .idle → invokeRun ops fuel s = runToEnd ops fuel { s with runState := .running }) ∧
      (s.runState ≠ .idle → invokeRun ops fuel s = runToEnd ops fuel s)) ∧
  ∀ (ops : Opcodes) (fuel : Nat) (s t : State), runToEnd ops fuel s = some t →
    (t.runState = .halted ∨ t.runState = .faulted) ∧ (∀ more, runToEnd ops (fuel + more) s = some t) ∧
      ∀ u, controllerStep ops t ≠ .next u

/-- Derived from rule R29 (the spec's decision D14, and log entry 7 for pins that are 1 together): one clock edge. -/
def Obligations.ClockEdgeFollowsPins : Prop :=
  ∀ (ops : Opcodes) (p : InPins) (s : State),
    (p.rst = true → SameCourse State.reset (clockEdge ops p s) ∧ (clockEdge ops p s).fl = 0x00 ∧
      (clockEdge ops p s).output = []) ∧
    (p.rst = false → s.runState = .running → controllerStep ops s = .next (clockEdge ops p s)) ∧
    (p.rst = false → (s.runState = .halted ∨ s.runState = .faulted) → clockEdge ops p s = s) ∧
    (p.rst = false → s.runState = .idle →
      (clockEdge ops p s).mem = (if p.ldWe then s.mem.write p.ldAddr p.ldData else s.mem) ∧
        (clockEdge ops p s).runState = (if p.run then .running else .idle) ∧
        SameRegsBut [] s (clockEdge ops p s) ∧ (clockEdge ops p s).pc = s.pc ∧ (clockEdge ops p s).fl = s.fl ∧
        SameRecord s (clockEdge ops p s) ∧ (clockEdge ops p s).output = s.output)

/-- Derived from rules R27, R29 and R122: over a clock edge without reset the output channel grows by exactly the byte the
output port shows. -/
def Obligations.OutPortShowsWhatPrnEmits : Prop :=
  ∀ (ops : Opcodes) (p : InPins) (s : State), p.rst = false →
    (clockEdge ops p s).output = s.output ++ (outPins ops s).out.toList

/-- Derived from rules R21, R22, R29, R151, R154 and R156: the run-state pins and the four fault record pins. In every state
they show the run state and the record; and after a clock edge without reset at which a step raises a fault, `faulted` is 1,
`halted` is 0, and the record pins show the cause code, the opcode byte, its address and, for `OutOfBounds`, the operand. -/
def Obligations.OutPinsShowRunStateAndRecord : Prop :=
  (∀ (ops : Opcodes) (s : State),
    ((outPins ops s).halted = true ↔ s.runState = .halted) ∧ ((outPins ops s).faulted = true ↔ s.runState = .faulted) ∧
      (outPins ops s).faultCause = s.faultCause ∧ (outPins ops s).faultOpcode = s.faultOpcode ∧
      (outPins ops s).faultAddr = s.faultAddr ∧ (outPins ops s).faultOperand = s.faultOperand) ∧
  (∀ (ops : Opcodes) (p : InPins) (s : State), p.rst = false → s.runState = .running → instrAt ops s = none →
    (outPins ops (clockEdge ops p s)).faulted = true ∧ (outPins ops (clockEdge ops p s)).halted = false ∧
      (outPins ops (clockEdge ops p s)).faultCause = 1 ∧ (outPins ops (clockEdge ops p s)).faultOpcode = s.load s.pc ∧
      (outPins ops (clockEdge ops p s)).faultAddr = s.pc) ∧
  ∀ (ops : Opcodes) (p : InPins) (s : State) (i : Instr) (o : Byte), p.rst = false → s.runState = .running →
    InstrAtPc ops i s → i.regOperands.find? (fun b => !namesReg b) = some o →
    (outPins ops (clockEdge ops p s)).faulted = true ∧ (outPins ops (clockEdge ops p s)).halted = false ∧
      (outPins ops (clockEdge ops p s)).faultCause = 4 ∧
      (outPins ops (clockEdge ops p s)).faultOpcode = opcodeOf ops i.handler ∧
      (outPins ops (clockEdge ops p s)).faultAddr = s.pc ∧ (outPins ops (clockEdge ops p s)).faultOperand = o

/-- Derived from rules R43, R101 and R181: a word of the opcode table placed at `pc` is run by the very next step (log
entry 6). -/
def Obligations.PlacedWordRuns : Prop :=
  ∀ (s : State) (nbits w : Nat) (i : Instr), s.mem.wf = true → decodeTableWord nbits w = some i →
    step (s.withFetchWord nbits w) = exec i (s.withFetchWord nbits w)

/-! The invariant, and what a run can depend on -/

/-- Derived from rules R20 and R30: the reset state meets the invariant, for every legal choice of the opcodes. -/
def Obligations.InvariantAtReset : Prop := ∀ ops : Opcodes, Inv ops State.reset

/-- Derived from rules R20, R22, R42, R150 and R156: every step keeps the invariant (canonical memory, FL one of its four
values, a fault record that describes the instruction at `pc`), for the default opcodes and for every legal choice. -/
def Obligations.StepKeepsInvariant : Prop :=
  (∀ s t : State, Inv defaultOpcodes s → step s = .next t → Inv defaultOpcodes t) ∧
    ∀ (ops : Opcodes) (s t : State), Inv ops s → controllerStep ops s = .next t → Inv ops t

/-- Derived from rules R28, R29, R100, R112 and R182: the host's operations keep the invariant, and so does a whole run. -/
def Obligations.BoundaryKeepsInvariant : Prop :=
  ∀ (ops : Opcodes) (s : State), Inv ops s →
    Inv ops (construct s) ∧ Inv ops (startRun s) ∧ (∀ p, Inv ops (clockEdge ops p s)) ∧
      (∀ a bytes t, writeMemory a bytes s = .next t → Inv ops t) ∧
      ∀ fuel t, invokeRun ops fuel s = some t → Inv ops t

/-- Derived from rules R19, R22, R27 and R110: a step depends on the registers, `pc`, memory and the run state alone. From a
state that agrees with `s` on these, whatever its FL, its fault record and its output so far, a step answers too, the next
states agree on them, and both outputs grow by the same bytes. -/
def Obligations.StepDependsOnRegistersPcMemory : Prop :=
  ∀ (ops : Opcodes) (s s' t : State), SameCourse s s' → controllerStep ops s = .next t →
    ∃ t' emitted, controllerStep ops s' = .next t' ∧ SameCourse t t' ∧
      t.output = s.output ++ emitted ∧ t'.output = s'.output ++ emitted

/-- Derived from rules R19, R22, R27 and R110: the final state of a run that ends depends on the registers, `pc` and memory
alone. Two states that agree on
these and on the run state, whatever their FL, their fault record and their output so far, run to final states that agree on
them too, and they emit the same bytes on the way. -/
def Obligations.RunDependsOnRegistersPcMemory : Prop :=
  ∀ (ops : Opcodes) (fuel : Nat) (s s' t : State), SameCourse s s' → runToEnd ops fuel s = some t →
    ∃ t' emitted, runToEnd ops fuel s' = some t' ∧ SameCourse t t' ∧
      t.output = s.output ++ emitted ∧ t'.output = s'.output ++ emitted
end

