-- ==== Sys2Proof/Laws/Decode.lean ====
section
/-! SUPPORT. The opcode map and the dispatch table are inverse to each other, for every legal choice of the open opcodes. -/

namespace Sys2Proof

/-- Two handlers never share an opcode (rule R67). -/
theorem opcodeOf_injective (ops : Opcodes) {h k : Handler} (e : opcodeOf ops h = opcodeOf ops k) : h = k := by
  have hd := ops.distinct
  simp only [List.nodup_cons, List.mem_cons, List.not_mem_nil, not_or, or_false] at hd
  cases h <;> cases k <;> simp only [opcodeOf] at e <;> first | rfl | (exfalso; simp_all)

/-- Every handler is in the table. -/
theorem mem_handlers (h : Handler) : h ∈ handlers := by cases h <;> decide

/-- What a lookup that answers says: the whole byte is that handler's opcode (rule R65). -/
theorem opcodeOf_of_dispatch {ops : Opcodes} {op : Byte} {h : Handler} (e : dispatch ops op = some h) :
    opcodeOf ops h = op := by
  simpa using List.find?_some e

/-- A handler's opcode dispatches to it. -/
theorem dispatch_opcodeOf (ops : Opcodes) (h : Handler) : dispatch ops (opcodeOf ops h) = some h := by
  cases e : dispatch ops (opcodeOf ops h) with
  | none =>
    have := List.find?_eq_none.1 e h (mem_handlers h)
    simp at this
  | some k => rw [opcodeOf_injective ops (opcodeOf_of_dispatch e)]

/-- The lookup, as an equivalence. -/
theorem dispatch_eq_some {ops : Opcodes} {op : Byte} {h : Handler} : dispatch ops op = some h ↔ op = opcodeOf ops h :=
  ⟨fun e => (opcodeOf_of_dispatch e).symm, fun e => e ▸ dispatch_opcodeOf ops h⟩

end Sys2Proof
end

