-- ==== Sys2Proof/Laws/Memory.lean ====
section
/-! SUPPORT. The memory laws: read after write, and every memory operation keeps the canonical form. -/

namespace Sys2Proof.Machine

/-- An address below the first listed one reads as unlisted. -/
theorem Memory.read_of_wfFrom {lo : Nat} {m : Memory} {a : Addr} (h : Memory.wfFrom lo m = true) (ha : a.toNat < lo) :
    Memory.read m a = Config.unlistedByte := by
  induction m generalizing lo with
  | nil => rfl
  | cons c m ih =>
    obtain ⟨k, v⟩ := c
    simp only [Memory.wfFrom, Bool.and_eq_true, decide_eq_true_eq] at h
    rw [Memory.read, if_neg (by omega)]
    exact ih h.2 (by omega)

/-- A list in canonical form from `lo` on is so from any smaller bound. -/
theorem Memory.wfFrom_mono {lo lo' : Nat} {m : Memory} (h : Memory.wfFrom lo m = true) (hle : lo' ≤ lo) :
    Memory.wfFrom lo' m = true := by
  cases m with
  | nil => rfl
  | cons c m =>
    simp only [Memory.wfFrom, Bool.and_eq_true, decide_eq_true_eq] at h ⊢
    exact ⟨⟨⟨by omega, h.1.1.2⟩, h.1.2⟩, h.2⟩

/-- One cell put before a list that starts above it. -/
theorem Memory.cell_append_wfFrom {lo : Nat} {m : Memory} {a : Addr} (v : Byte) (ha : lo ≤ a.toNat)
    (h : Memory.wfFrom (a.toNat + 1) m = true) : Memory.wfFrom lo (Memory.cell a v ++ m) = true := by
  unfold Memory.cell
  split
  · exact Memory.wfFrom_mono h (by omega)
  · have hlt : a.toNat < Config.memSize := a.isLt
    simp_all [Memory.wfFrom]

/-- A write keeps the canonical form from a bound at or below its address. -/
theorem Memory.write_wfFrom {lo : Nat} {m : Memory} {a : Addr} (v : Byte) (h : Memory.wfFrom lo m = true)
    (ha : lo ≤ a.toNat) : Memory.wfFrom lo (Memory.write m a v) = true := by
  induction m generalizing lo with
  | nil => simpa [Memory.write] using Memory.cell_append_wfFrom (m := []) v ha rfl
  | cons c m ih =>
    obtain ⟨k, w⟩ := c
    have h' := h
    simp only [Memory.wfFrom, Bool.and_eq_true, decide_eq_true_eq] at h'
    rw [Memory.write]
    split
    · refine Memory.cell_append_wfFrom v ha ?_
      simp only [Memory.wfFrom, Bool.and_eq_true, decide_eq_true_eq]
      exact ⟨⟨⟨by omega, h'.1.1.2⟩, h'.1.2⟩, h'.2⟩
    · split
      · exact Memory.cell_append_wfFrom v ha (Memory.wfFrom_mono h'.2 (by omega))
      · simp only [Memory.wfFrom, Bool.and_eq_true, decide_eq_true_eq]
        exact ⟨h'.1, ih h'.2 (by omega)⟩

/-- Every write keeps the canonical form. -/
theorem Memory.write_wf {m : Memory} (a : Addr) (v : Byte) (h : m.wf = true) : (m.write a v).wf = true :=
  Memory.write_wfFrom v h (Nat.zero_le _)

/-- Storing bytes keeps the canonical form. -/
theorem State.storeBytes_wf {s : State} (a : Addr) (vs : List Byte) (h : s.mem.wf = true) :
    (s.storeBytes a vs).mem.wf = true := by
  induction vs generalizing s a with
  | nil => exact h
  | cons v vs ih => exact ih (s := s.store a v) _ (Memory.write_wf a v h)

/-- What a written cell put before a list reads as. -/
theorem Memory.read_cell_append {m : Memory} {a : Addr} (v : Byte) (x : Addr)
    (h : Memory.wfFrom (a.toNat + 1) m = true) :
    Memory.read (Memory.cell a v ++ m) x = if x = a then v else Memory.read m x := by
  unfold Memory.cell
  by_cases hx : x = a
  · subst hx
    split
    · simp_all [Memory.read_of_wfFrom h (Nat.lt_succ_self _)]
    · simp [Memory.read]
  · have : ¬ a.toNat = x.toNat := fun e => hx (BitVec.eq_of_toNat_eq e.symm)
    rw [if_neg hx]
    split <;> simp [Memory.read, this]

/-- Reading after a write from a bound at or below its address. -/
theorem Memory.read_write_from {lo : Nat} {m : Memory} {a : Addr} (v : Byte) (x : Addr)
    (h : Memory.wfFrom lo m = true) :
    Memory.read (Memory.write m a v) x = if x = a then v else Memory.read m x := by
  induction m generalizing lo with
  | nil => simpa [Memory.write] using Memory.read_cell_append (m := []) v x rfl
  | cons c m ih =>
    obtain ⟨k, w⟩ := c
    have h' := h
    simp only [Memory.wfFrom, Bool.and_eq_true, decide_eq_true_eq] at h'
    rw [Memory.write]
    split
    · refine Memory.read_cell_append v x ?_
      simp only [Memory.wfFrom, Bool.and_eq_true, decide_eq_true_eq]
      exact ⟨⟨⟨by omega, h'.1.1.2⟩, h'.1.2⟩, h'.2⟩
    · split
      · next hk =>
        rw [Memory.read_cell_append v x (Memory.wfFrom_mono h'.2 (by omega))]
        by_cases hx : x = a
        · simp [hx]
        · have : ¬ k = x.toNat := fun e => hx (BitVec.eq_of_toNat_eq (by omega))
          simp [Memory.read, hx, this]
      · next hk =>
        rw [Memory.read, ih h'.2, Memory.read]
        by_cases hx : x = a
        · subst hx; simp [hk]
        · simp [hx]

/-- An instruction's store changes one cell. -/
theorem State.store_load {s : State} (h : s.mem.wf = true) (a : Addr) (v : Byte) (x : Addr) :
    (s.store a v).load x = if x = a then v else s.load x :=
  Memory.read_write_from v x h

end Sys2Proof.Machine
end

