-- ==== Sys2Proof/Laws/State.lean ====
section
/-! SUPPORT. What each update of the state leaves in each field (one lemma per field per update, true by rfl), and what it
leaves in a register and in a memory cell. -/

namespace Sys2Proof.Machine

variable (s : State)

@[simp] theorem State.setReg_regs (r : Reg) (v : Byte) : (s.setReg r v).regs = s.regs.set r v := rfl
@[simp] theorem State.setReg_pc (r : Reg) (v : Byte) : (s.setReg r v).pc = s.pc := rfl
@[simp] theorem State.setReg_fl (r : Reg) (v : Byte) : (s.setReg r v).fl = s.fl := rfl
@[simp] theorem State.setReg_runState (r : Reg) (v : Byte) : (s.setReg r v).runState = s.runState := rfl
@[simp] theorem State.setReg_faultCause (r : Reg) (v : Byte) : (s.setReg r v).faultCause = s.faultCause := rfl
@[simp] theorem State.setReg_faultOpcode (r : Reg) (v : Byte) : (s.setReg r v).faultOpcode = s.faultOpcode := rfl
@[simp] theorem State.setReg_faultAddr (r : Reg) (v : Byte) : (s.setReg r v).faultAddr = s.faultAddr := rfl
@[simp] theorem State.setReg_faultOperand (r : Reg) (v : Byte) : (s.setReg r v).faultOperand = s.faultOperand := rfl
@[simp] theorem State.setReg_mem (r : Reg) (v : Byte) : (s.setReg r v).mem = s.mem := rfl
@[simp] theorem State.setReg_output (r : Reg) (v : Byte) : (s.setReg r v).output = s.output := rfl
@[simp] theorem State.setReg_freeCount (r : Reg) (v : Byte) : (s.setReg r v).freeCount = s.freeCount := rfl
@[simp] theorem State.setReg_load (r : Reg) (v : Byte) (x : Addr) : (s.setReg r v).load x = s.load x := rfl

@[simp] theorem State.setPc_regs (v : Addr) : (s.setPc v).regs = s.regs := rfl
@[simp] theorem State.setPc_pc (v : Addr) : (s.setPc v).pc = v := rfl
@[simp] theorem State.setPc_fl (v : Addr) : (s.setPc v).fl = s.fl := rfl
@[simp] theorem State.setPc_runState (v : Addr) : (s.setPc v).runState = s.runState := rfl
@[simp] theorem State.setPc_faultCause (v : Addr) : (s.setPc v).faultCause = s.faultCause := rfl
@[simp] theorem State.setPc_faultOpcode (v : Addr) : (s.setPc v).faultOpcode = s.faultOpcode := rfl
@[simp] theorem State.setPc_faultAddr (v : Addr) : (s.setPc v).faultAddr = s.faultAddr := rfl
@[simp] theorem State.setPc_faultOperand (v : Addr) : (s.setPc v).faultOperand = s.faultOperand := rfl
@[simp] theorem State.setPc_mem (v : Addr) : (s.setPc v).mem = s.mem := rfl
@[simp] theorem State.setPc_output (v : Addr) : (s.setPc v).output = s.output := rfl
@[simp] theorem State.setPc_freeCount (v : Addr) : (s.setPc v).freeCount = s.freeCount := rfl
@[simp] theorem State.setPc_reg (v : Addr) (q : Reg) : (s.setPc v).reg q = s.reg q := rfl
@[simp] theorem State.setPc_load (v x : Addr) : (s.setPc v).load x = s.load x := rfl

@[simp] theorem State.setFl_regs (v : Byte) : (s.setFl v).regs = s.regs := rfl
@[simp] theorem State.setFl_pc (v : Byte) : (s.setFl v).pc = s.pc := rfl
@[simp] theorem State.setFl_fl (v : Byte) : (s.setFl v).fl = v := rfl
@[simp] theorem State.setFl_runState (v : Byte) : (s.setFl v).runState = s.runState := rfl
@[simp] theorem State.setFl_faultCause (v : Byte) : (s.setFl v).faultCause = s.faultCause := rfl
@[simp] theorem State.setFl_faultOpcode (v : Byte) : (s.setFl v).faultOpcode = s.faultOpcode := rfl
@[simp] theorem State.setFl_faultAddr (v : Byte) : (s.setFl v).faultAddr = s.faultAddr := rfl
@[simp] theorem State.setFl_faultOperand (v : Byte) : (s.setFl v).faultOperand = s.faultOperand := rfl
@[simp] theorem State.setFl_mem (v : Byte) : (s.setFl v).mem = s.mem := rfl
@[simp] theorem State.setFl_output (v : Byte) : (s.setFl v).output = s.output := rfl
@[simp] theorem State.setFl_freeCount (v : Byte) : (s.setFl v).freeCount = s.freeCount := rfl
@[simp] theorem State.setFl_reg (v : Byte) (q : Reg) : (s.setFl v).reg q = s.reg q := rfl
@[simp] theorem State.setFl_load (v : Byte) (x : Addr) : (s.setFl v).load x = s.load x := rfl

@[simp] theorem State.setRunState_regs (v : RunState) : (s.setRunState v).regs = s.regs := rfl
@[simp] theorem State.setRunState_pc (v : RunState) : (s.setRunState v).pc = s.pc := rfl
@[simp] theorem State.setRunState_fl (v : RunState) : (s.setRunState v).fl = s.fl := rfl
@[simp] theorem State.setRunState_runState (v : RunState) : (s.setRunState v).runState = v := rfl
@[simp] theorem State.setRunState_faultCause (v : RunState) : (s.setRunState v).faultCause = s.faultCause := rfl
@[simp] theorem State.setRunState_faultOpcode (v : RunState) : (s.setRunState v).faultOpcode = s.faultOpcode := rfl
@[simp] theorem State.setRunState_faultAddr (v : RunState) : (s.setRunState v).faultAddr = s.faultAddr := rfl
@[simp] theorem State.setRunState_faultOperand (v : RunState) : (s.setRunState v).faultOperand = s.faultOperand := rfl
@[simp] theorem State.setRunState_mem (v : RunState) : (s.setRunState v).mem = s.mem := rfl
@[simp] theorem State.setRunState_output (v : RunState) : (s.setRunState v).output = s.output := rfl
@[simp] theorem State.setRunState_freeCount (v : RunState) : (s.setRunState v).freeCount = s.freeCount := rfl
@[simp] theorem State.setRunState_reg (v : RunState) (q : Reg) : (s.setRunState v).reg q = s.reg q := rfl
@[simp] theorem State.setRunState_load (v : RunState) (x : Addr) : (s.setRunState v).load x = s.load x := rfl

@[simp] theorem State.store_regs (a : Addr) (v : Byte) : (s.store a v).regs = s.regs := rfl
@[simp] theorem State.store_pc (a : Addr) (v : Byte) : (s.store a v).pc = s.pc := rfl
@[simp] theorem State.store_fl (a : Addr) (v : Byte) : (s.store a v).fl = s.fl := rfl
@[simp] theorem State.store_runState (a : Addr) (v : Byte) : (s.store a v).runState = s.runState := rfl
@[simp] theorem State.store_faultCause (a : Addr) (v : Byte) : (s.store a v).faultCause = s.faultCause := rfl
@[simp] theorem State.store_faultOpcode (a : Addr) (v : Byte) : (s.store a v).faultOpcode = s.faultOpcode := rfl
@[simp] theorem State.store_faultAddr (a : Addr) (v : Byte) : (s.store a v).faultAddr = s.faultAddr := rfl
@[simp] theorem State.store_faultOperand (a : Addr) (v : Byte) : (s.store a v).faultOperand = s.faultOperand := rfl
@[simp] theorem State.store_mem (a : Addr) (v : Byte) : (s.store a v).mem = s.mem.write a v := rfl
@[simp] theorem State.store_output (a : Addr) (v : Byte) : (s.store a v).output = s.output := rfl
@[simp] theorem State.store_freeCount (a : Addr) (v : Byte) : (s.store a v).freeCount = s.freeCount := rfl
@[simp] theorem State.store_reg (a : Addr) (v : Byte) (q : Reg) : (s.store a v).reg q = s.reg q := rfl

@[simp] theorem State.emit_regs (v : Byte) : (s.emit v).regs = s.regs := rfl
@[simp] theorem State.emit_pc (v : Byte) : (s.emit v).pc = s.pc := rfl
@[simp] theorem State.emit_fl (v : Byte) : (s.emit v).fl = s.fl := rfl
@[simp] theorem State.emit_runState (v : Byte) : (s.emit v).runState = s.runState := rfl
@[simp] theorem State.emit_faultCause (v : Byte) : (s.emit v).faultCause = s.faultCause := rfl
@[simp] theorem State.emit_faultOpcode (v : Byte) : (s.emit v).faultOpcode = s.faultOpcode := rfl
@[simp] theorem State.emit_faultAddr (v : Byte) : (s.emit v).faultAddr = s.faultAddr := rfl
@[simp] theorem State.emit_faultOperand (v : Byte) : (s.emit v).faultOperand = s.faultOperand := rfl
@[simp] theorem State.emit_mem (v : Byte) : (s.emit v).mem = s.mem := rfl
@[simp] theorem State.emit_output (v : Byte) : (s.emit v).output = s.output ++ [v] := rfl
@[simp] theorem State.emit_freeCount (v : Byte) : (s.emit v).freeCount = s.freeCount := rfl
@[simp] theorem State.emit_reg (v : Byte) (q : Reg) : (s.emit v).reg q = s.reg q := rfl
@[simp] theorem State.emit_load (v : Byte) (x : Addr) : (s.emit v).load x = s.load x := rfl

@[simp] theorem State.advance_regs (n : Nat) : (s.advance n).regs = s.regs := rfl
@[simp] theorem State.advance_pc (n : Nat) : (s.advance n).pc = s.pc + BitVec.ofNat 8 (1 + n) := rfl
@[simp] theorem State.advance_fl (n : Nat) : (s.advance n).fl = s.fl := rfl
@[simp] theorem State.advance_runState (n : Nat) : (s.advance n).runState = s.runState := rfl
@[simp] theorem State.advance_faultCause (n : Nat) : (s.advance n).faultCause = s.faultCause := rfl
@[simp] theorem State.advance_faultOpcode (n : Nat) : (s.advance n).faultOpcode = s.faultOpcode := rfl
@[simp] theorem State.advance_faultAddr (n : Nat) : (s.advance n).faultAddr = s.faultAddr := rfl
@[simp] theorem State.advance_faultOperand (n : Nat) : (s.advance n).faultOperand = s.faultOperand := rfl
@[simp] theorem State.advance_mem (n : Nat) : (s.advance n).mem = s.mem := rfl
@[simp] theorem State.advance_output (n : Nat) : (s.advance n).output = s.output := rfl
@[simp] theorem State.advance_freeCount (n : Nat) : (s.advance n).freeCount = s.freeCount := rfl
@[simp] theorem State.advance_reg (n : Nat) (q : Reg) : (s.advance n).reg q = s.reg q := rfl
@[simp] theorem State.advance_load (n : Nat) (x : Addr) : (s.advance n).load x = s.load x := rfl

/-- Register write, register read (rule R10). -/
theorem State.setReg_reg (r : Reg) (v : Byte) (q : Reg) : (s.setReg r v).reg q = if q = r then v else s.reg q := by
  simp only [State.reg, State.setReg, Fin.getElem_fin, Vector.getElem_set, Fin.val_inj]
  simp only [eq_comm]

@[simp] theorem State.setReg_reg_same (r : Reg) (v : Byte) : (s.setReg r v).reg r = v := by
  simp [State.setReg_reg]

@[simp] theorem State.setReg_reg_other {q r : Reg} (h : q ≠ r) (v : Byte) : (s.setReg r v).reg q = s.reg q := by
  simp [State.setReg_reg, h]

end Sys2Proof.Machine
end

