-- ==== Sys2Proof/Laws/Ops.lean ====
section
/-! SUPPORT. For each shared operation, one lemma that says everything it can do. -/

namespace Sys2Proof.Machine

/-- A register operand (rule R64). -/
theorem regOf_some {o : Byte} {r : Reg} : regOf o = some r ↔ o.toNat = r.val := by
  unfold regOf
  split
  · rw [Option.some_inj, Fin.ext_iff]
  · have := r.isLt
    simp; omega

/-- An operand byte that names no register (rule R64). -/
theorem regOf_none {o : Byte} : regOf o = none ↔ 8 ≤ o.toNat := by
  unfold regOf
  split <;> simp <;> omega

/-- The byte `r` names register `r` (rule R64). -/
@[simp] theorem regOf_ofNat (r : Reg) : regOf (BitVec.ofNat 8 r.val) = some r := by
  have := r.isLt
  rw [regOf_some, BitVec.toNat_ofNat]
  omega

/-- The operand byte of register `r` has its number. -/
@[simp] theorem regByte_toNat (r : Reg) : (regByte r).toNat = r.val := by
  have := r.isLt
  simp only [regByte, BitVec.toNat_ofNat]
  omega

/-- A byte with the number of register `r` is that register's operand byte. -/
theorem eq_regByte {o : Byte} {r : Reg} (h : o.toNat = r.val) : o = regByte r :=
  BitVec.eq_of_toNat_eq (by rw [regByte_toNat, h])

/-- Different registers have different operand bytes. -/
theorem regByte_injective {q r : Reg} (h : regByte q = regByte r) : q = r :=
  Fin.ext (by simpa using congrArg BitVec.toNat h)

/-- Everything a one-register form can do: `OutOfBounds` for its operand, or its handler. -/
theorem withReg_cases (o : Byte) (s : State) (k : Reg → Host.Outcome State Fault Refusal) :
    (8 ≤ o.toNat ∧ withReg o s k = .next (raiseFault .outOfBounds (some o) s)) ∨
      ∃ r : Reg, o.toNat = r.val ∧ withReg o s k = k r := by
  unfold withReg
  cases e : regOf o with
  | none => exact .inl ⟨regOf_none.1 e, rfl⟩
  | some r => exact .inr ⟨r, regOf_some.1 e, rfl⟩

/-- The one-register form on a byte that names a register. -/
theorem withReg_of_eq {o : Byte} {r : Reg} (h : o.toNat = r.val) (s : State)
    (k : Reg → Host.Outcome State Fault Refusal) : withReg o s k = k r := by
  simp [withReg, regOf_some.2 h]

/-- The one-register form on a byte that names none. -/
theorem withReg_of_ge {o : Byte} (h : 8 ≤ o.toNat) (s : State) (k : Reg → Host.Outcome State Fault Refusal) :
    withReg o s k = .next (raiseFault .outOfBounds (some o) s) := by
  simp [withReg, regOf_none.2 h]

/-- Everything the entry of a fatal condition does (rule R156). -/
theorem raiseFault_spec (cause : FaultCause) (operand : Option Byte) (s : State) :
    FaultedFrom s cause (s.load s.pc) operand (raiseFault cause operand s) :=
  ⟨rfl, rfl, rfl, rfl, fun o h => by simp [raiseFault, h], rfl, fun _ _ => rfl, fun _ _ => rfl, rfl, rfl⟩

/-- Everything a push does, apart from memory's bytes. -/
theorem pushByte_spec (s : State) (v : State → Byte) :
    s.pushByte v = (s.setReg Config.spIndex (s.sp - 1)).store (s.sp - 1) (v (s.setReg Config.spIndex (s.sp - 1))) := by
  simp [State.pushByte, State.decSp, State.sp]

/-- A push leaves every field but the registers and memory. -/
theorem pushByte_rest (s : State) (v : State → Byte) :
    (s.pushByte v).pc = s.pc ∧ (s.pushByte v).fl = s.fl ∧ (s.pushByte v).runState = s.runState ∧
      SameRecord s (s.pushByte v) ∧ (s.pushByte v).output = s.output :=
  ⟨rfl, rfl, rfl, ⟨rfl, rfl, rfl, rfl, rfl⟩, rfl⟩

/-- The registers after a push. -/
theorem pushByte_reg (s : State) (v : State → Byte) (q : Reg) :
    (s.pushByte v).reg q = if q = Config.spIndex then s.sp - 1 else s.reg q := by
  rw [pushByte_spec, State.store_reg, State.setReg_reg]

/-- The memory after a push. -/
theorem pushByte_load {s : State} (h : s.mem.wf = true) (v : State → Byte) (x : Addr) :
    (s.pushByte v).load x = if x = s.sp - 1 then v s.decSp else s.load x := by
  rw [pushByte_spec, State.store_load (by simpa using h)]
  rfl

/-- Everything the ALU can do: one register written, or FL written, or a division by zero. -/
theorem alu_cases (op : AluOp) (a b : Reg) (s : State) :
    (∃ v, alu op a b s = .ok (s.setReg a v)) ∨ (op = .cmp ∧ alu op a b s = .ok (s.setFl (cmpFlags (s.reg a) (s.reg b)))) ∨
      (op = .div ∧ s.reg b = 0 ∧ alu op a b s = .error .divisionByZero) := by
  cases op
  case div =>
    by_cases h : s.reg b = 0
    · exact .inr (.inr ⟨rfl, h, if_pos h⟩)
    · exact .inl ⟨_, if_neg h⟩
  case cmp => exact .inr (.inl ⟨rfl, rfl⟩)
  all_goals exact .inl ⟨_, rfl⟩

/-- CMP's flag value (rule R85). -/
theorem cmpFlags_legal (x y : Byte) : cmpFlags x y = 0x01 ∨ cmpFlags x y = 0x02 ∨ cmpFlags x y = 0x04 := by
  unfold cmpFlags
  split
  · exact .inl rfl
  · split
    · exact .inr (.inl rfl)
    · exact .inr (.inr rfl)

end Sys2Proof.Machine
end

