-- ==== Sys2Proof/Laws/PerInstr.lean ====
section
/-! SUPPORT. Statements about every instruction as syntax, one lemma per constructor. -/

/-- The length of the encoding is one more than bits 7 to 6 of its first byte (rules R60, R65, R67). -/
def Sys2Proof.Laws.EncodedLength.Statement (i : Sys2Proof.Instr) : Prop :=
  ∀ ops : Sys2Proof.Opcodes,
    (Sys2Proof.encode ops i).length = 1 + Sys2Proof.operandField (Sys2Proof.opcodeOf ops i.handler)

namespace Sys2Proof.Laws.EncodedLength

theorem hlt : Statement .hlt := fun _ => congrArg (1 + ·) (show 0 = operandField opHlt by decide)
theorem ret : Statement .ret := fun ops => congrArg (1 + ·) ops.counts.1.symm
theorem push (r : Byte) : Statement (.push r) := fun ops => congrArg (1 + ·) ops.counts.2.1.symm
theorem pop (r : Byte) : Statement (.pop r) := fun ops => congrArg (1 + ·) ops.counts.2.2.1.symm
theorem prn (r : Byte) : Statement (.prn r) := fun _ => congrArg (1 + ·) (show 1 = operandField opPrn by decide)
theorem call (r : Byte) : Statement (.call r) := fun ops => congrArg (1 + ·) ops.counts.2.2.2.1.symm
theorem ldi (r imm : Byte) : Statement (.ldi r imm) :=
  fun _ => congrArg (1 + ·) (show 2 = operandField opLdi by decide)
theorem mul (a b : Byte) : Statement (.mul a b) := fun ops => congrArg (1 + ·) ops.counts.2.2.2.2.1.symm
theorem cmp (a b : Byte) : Statement (.cmp a b) := fun ops => congrArg (1 + ·) ops.counts.2.2.2.2.2.symm

end Sys2Proof.Laws.EncodedLength
end

