-- ==== Sys2Proof/Laws/Step.lean ====
section
/-! SUPPORT. Everything exec and a step can do, said once. -/

namespace Sys2Proof.Machine

/-- Everything `exec` can do: it raises `OutOfBounds` for an operand that names no register, or one of the nine effects
happens on the registers named. -/
theorem exec_cases (i : Instr) (s : State) :
    (∃ o ∈ i.regOperands, 8 ≤ o.toNat ∧ exec i s = .next (raiseFault .outOfBounds (some o) s)) ∨
    (i.wellFormed = true ∧
      ((i = .hlt ∧ exec i s = .next ((s.setRunState .halted).advance 0)) ∨
      (i = .ret ∧ exec i s = .next ((s.setPc s.top).incSp)) ∨
      (∃ (o : Byte) (r : Reg), o.toNat = r.val ∧
        ((i = .push o ∧ exec i s = .next ((s.pushByte fun t => t.reg r).advance 1)) ∨
        (i = .pop o ∧ exec i s = .next ((s.setReg r s.top).incSp.advance 1)) ∨
        (i = .prn o ∧ exec i s = .next ((s.emit (s.reg r)).advance 1)) ∨
        (i = .call o ∧ exec i s = .next ((s.pushByte fun t => t.pc + 2).setPc ((s.pushByte fun t => t.pc + 2).reg r))) ∨
        (∃ imm, i = .ldi o imm ∧ exec i s = .next ((s.setReg r imm).advance 2)) ∨
        (∃ (o' : Byte) (r' : Reg), o'.toNat = r'.val ∧
          ((i = .mul o o' ∧ exec i s = .next ((s.setReg r (s.reg r * s.reg r')).advance 2)) ∨
          (i = .cmp o o' ∧ exec i s = .next ((s.setFl (cmpFlags (s.reg r) (s.reg r'))).advance 2)))))))) := by
  have hwf {o : Byte} {r : Reg} (h : o.toNat = r.val) : namesReg o = true := by
    have : o.toNat < 8 := h ▸ r.isLt
    exact decide_eq_true this
  cases i with
  | hlt => exact .inr ⟨rfl, .inl ⟨rfl, rfl⟩⟩
  | ret => exact .inr ⟨rfl, .inr (.inl ⟨rfl, rfl⟩)⟩
  | push o =>
    obtain ⟨h, e⟩ | ⟨r, h, e⟩ := withReg_cases o s fun d => .next ((s.pushByte fun t => t.reg d).advance 1)
    · exact .inl ⟨o, by simp [Instr.regOperands], h, e⟩
    · exact .inr ⟨by simp [Instr.wellFormed, Instr.regOperands, hwf h], .inr (.inr ⟨o, r, h, .inl ⟨rfl, e⟩⟩)⟩
  | pop o =>
    obtain ⟨h, e⟩ | ⟨r, h, e⟩ := withReg_cases o s fun d => .next ((s.setReg d s.top).incSp.advance 1)
    · exact .inl ⟨o, by simp [Instr.regOperands], h, e⟩
    · exact .inr ⟨by simp [Instr.wellFormed, Instr.regOperands, hwf h], .inr (.inr ⟨o, r, h, .inr (.inl ⟨rfl, e⟩)⟩)⟩
  | prn o =>
    obtain ⟨h, e⟩ | ⟨r, h, e⟩ := withReg_cases o s fun d => .next ((s.emit (s.reg d)).advance 1)
    · exact .inl ⟨o, by simp [Instr.regOperands], h, e⟩
    · exact .inr ⟨by simp [Instr.wellFormed, Instr.regOperands, hwf h],
        .inr (.inr ⟨o, r, h, .inr (.inr (.inl ⟨rfl, e⟩))⟩)⟩
  | call o =>
    obtain ⟨h, e⟩ | ⟨r, h, e⟩ := withReg_cases o s fun d =>
      .next ((s.pushByte fun t => t.pc + 2).setPc ((s.pushByte fun t => t.pc + 2).reg d))
    · exact .inl ⟨o, by simp [Instr.regOperands], h, e⟩
    · exact .inr ⟨by simp [Instr.wellFormed, Instr.regOperands, hwf h],
        .inr (.inr ⟨o, r, h, .inr (.inr (.inr (.inl ⟨rfl, e⟩)))⟩)⟩
  | ldi o imm =>
    obtain ⟨h, e⟩ | ⟨r, h, e⟩ := withReg_cases o s fun d => .next ((s.setReg d imm).advance 2)
    · exact .inl ⟨o, by simp [Instr.regOperands], h, e⟩
    · exact .inr ⟨by simp [Instr.wellFormed, Instr.regOperands, hwf h],
        .inr (.inr ⟨o, r, h, .inr (.inr (.inr (.inr (.inl ⟨imm, rfl, e⟩))))⟩)⟩
  | mul o o' =>
    obtain ⟨h, e⟩ | ⟨r, h, e⟩ := withReg_cases o s fun a => withReg o' s fun b => afterAlu 2 s (alu .mul a b s)
    · exact .inl ⟨o, by simp [Instr.regOperands], h, e⟩
    · obtain ⟨h', e'⟩ | ⟨r', h', e'⟩ := withReg_cases o' s fun b => afterAlu 2 s (alu .mul r b s)
      · exact .inl ⟨o', by simp [Instr.regOperands], h', e.trans e'⟩
      · exact .inr ⟨by simp [Instr.wellFormed, Instr.regOperands, hwf h, hwf h'],
          .inr (.inr ⟨o, r, h, .inr (.inr (.inr (.inr (.inr ⟨o', r', h', .inl ⟨rfl, e.trans e'⟩⟩))))⟩)⟩
  | cmp o o' =>
    obtain ⟨h, e⟩ | ⟨r, h, e⟩ := withReg_cases o s fun a => withReg o' s fun b => afterAlu 2 s (alu .cmp a b s)
    · exact .inl ⟨o, by simp [Instr.regOperands], h, e⟩
    · obtain ⟨h', e'⟩ | ⟨r', h', e'⟩ := withReg_cases o' s fun b => afterAlu 2 s (alu .cmp r b s)
      · exact .inl ⟨o', by simp [Instr.regOperands], h', e.trans e'⟩
      · exact .inr ⟨by simp [Instr.wellFormed, Instr.regOperands, hwf h, hwf h'],
          .inr (.inr ⟨o, r, h, .inr (.inr (.inr (.inr (.inr ⟨o', r', h', .inr ⟨rfl, e.trans e'⟩⟩))))⟩)⟩

/-- A step in `Running`, by the instruction it would run: `exec` of it, or `UnknownInstruction` where there is none. -/
theorem controllerStep_of_running (ops : Opcodes) {s : State} (hr : s.runState = .running) :
    controllerStep ops s = (match instrAt ops s with
      | none => .next (raiseFault .unknownInstruction none s)
      | some i => exec i s) := by
  simp only [controllerStep, hr, instrAt]
  cases decode ops (fetch ops s) <;> rfl

/-- Everything a step that answers a next state can do. -/
theorem controllerStep_cases {ops : Opcodes} {s t : State} (h : controllerStep ops s = .next t) :
    s.runState = .running ∧
      ((∃ e, decode ops (fetch ops s) = .error e ∧ t = raiseFault .unknownInstruction none s) ∨
        ∃ i rest, decode ops (fetch ops s) = .ok (i, rest) ∧ exec i s = .next t) := by
  unfold controllerStep at h
  split at h
  · cases h
  · next hr =>
    refine ⟨hr, ?_⟩
    split at h
    · next e he => exact .inl ⟨e, he, by cases h; rfl⟩
    · next i rest he => exact .inr ⟨i, rest, he, h⟩
  · cases h
  · cases h

end Sys2Proof.Machine
end

