-- ==== Sys2Proof/Tests/Slice0.lean ====
section
/-! SUPPORT. Tests with expected results from the spec's own vectors (95_test_vectors.md), the smoke test of WellFormed, and for
every obligation with hypotheses a state and operands that meet them. -/

namespace Sys2Proof.Tests

open Sys2Proof.Machine

/-! Helpers -/

/-- The next state, if there is one. -/
def nextOf : Host.Outcome State Fault Refusal → Option State
  | .next t => some t
  | .fault _ => none
  | .refused _ => none

/-- A next state with a property. -/
theorem exists_next {o : Host.Outcome State Fault Refusal} {p : State → Bool} (h : (nextOf o).any p = true) :
    ∃ t, o = .next t ∧ p t = true := by
  cases o with
  | next t => exact ⟨t, rfl, h⟩
  | fault r => cases h
  | refused r => cases h

/-- The machine running at `pc` with the bytes `code` there. -/
def at_ (pc : Addr) (code : List Byte) : State := ({ State.reset with pc := pc, runState := .running }).storeBytes pc code

/-- What one step leaves, seen through `view`. -/
def seen {α : Type} (s : State) (view : State → α) : Option α := (nextOf (step s)).map view

/-- The fault record's view of a faulted state, without the operand. -/
def record (t : State) : RunState × BitVec 3 × Byte × Addr × Addr :=
  (t.runState, t.faultCause, t.faultOpcode, t.faultAddr, t.pc)

/-! WellFormed refuses a register operand above 7, for every operand position -/

theorem test_illFormed_refused :
    [Instr.push 8, .pop 255, .prn 8, .call 9, .ldi 8 0, .mul 8 0, .mul 0 8, .cmp 9 0, .cmp 0 10].all
      (fun i => !i.wellFormed) = true := by decide

theorem test_wellFormed_accepted :
    [Instr.hlt, .ret, .push 7, .pop 0, .prn 7, .call 3, .ldi 7 255, .mul 7 0, .cmp 0 7].all Instr.wellFormed = true := by
  decide

/-! Decoding: each instruction's word, written out from rules R62 and R68 -/

theorem test_decode_hlt : decode defaultOpcodes [0b00000001] = .ok (.hlt, []) := by rfl
theorem test_decode_ret : decode defaultOpcodes [0b00010001] = .ok (.ret, []) := by rfl
theorem test_decode_push : decode defaultOpcodes [0b01000101, 0b00000001] = .ok (.push 1, []) := by rfl
theorem test_decode_pop : decode defaultOpcodes [0b01000110, 0b00000010] = .ok (.pop 2, []) := by rfl
theorem test_decode_prn : decode defaultOpcodes [0b01000111, 0b00000011] = .ok (.prn 3, []) := by rfl
theorem test_decode_call : decode defaultOpcodes [0b01010000, 0b00000100] = .ok (.call 4, []) := by rfl
theorem test_decode_ldi : decode defaultOpcodes [0b10000010, 0b00000101, 0b10000000] = .ok (.ldi 5 128, []) := by rfl
theorem test_decode_mul : decode defaultOpcodes [0b10100010, 0b00000110, 0b00000001] = .ok (.mul 6 1, []) := by rfl
theorem test_decode_cmp : decode defaultOpcodes [0b10100111, 0b00000000, 0b00000111] = .ok (.cmp 0 7, []) := by rfl

/-- Rule R69: 0x00, the count-3 bytes and LS-8's ADD are unrecognised, and 247 of the 256 bytes are. -/
theorem test_decode_unknown :
    decode defaultOpcodes [0x00] = .error (.unknownInstruction 0x00) ∧
      decode defaultOpcodes [0xC0, 8, 8, 8] = .error (.unknownInstruction 0xC0) ∧
      decode defaultOpcodes [0xA0, 0, 1] = .error (.unknownInstruction 0xA0) ∧
      ((List.range 256).filter fun n => (dispatch defaultOpcodes (BitVec.ofNat 8 n)).isNone).length = 247 := by
  refine ⟨rfl, rfl, rfl, by decide +kernel⟩

theorem test_decode_truncated : decode defaultOpcodes [0x82, 0x00] = .error (.truncated 0x82) := by rfl

/-- A table word numbers the first byte lowest. -/
theorem test_tableWord : decodeTableWord 24 0x080082 = some (.ldi 0 8) ∧ decodeTableWord 8 0x01 = some .hlt := by
  constructor <;> rfl

/-! One step of each instruction: sections 2.2 to 2.7 of 95_test_vectors.md -/

/-- 2.3: HLT at 05, and at FF where the advance wraps. -/
theorem test_hlt :
    seen (at_ 0x05 [0x01]) (fun t => (t.runState, t.pc)) = some (.halted, 0x06) ∧
      seen (at_ 0xFF [0x01]) (fun t => (t.runState, t.pc)) = some (.halted, 0x00) := by decide

/-- 2.6: RET with the return address on top, and at SP = FF. -/
theorem test_ret :
    seen (((at_ 0x0B [0x11]).setReg 7 0xF3).store 0xF3 0x05) (fun t => (t.pc, t.reg 7)) = some (0x05, 0xF4) ∧
      seen (((at_ 0x10 [0x11]).setReg 7 0xFF).store 0xFF 0x40) (fun t => (t.pc, t.reg 7)) = some (0x40, 0x00) := by decide

/-- 2.5: PUSH R0, and with SP = 00 where the decrement wraps. -/
theorem test_push :
    seen ((at_ 0x03 [0x45, 0x00]).setReg 0 9) (fun t => (t.reg 7, t.load 0xF3, t.reg 0, t.pc)) = some (0xF3, 9, 9, 5) ∧
      seen (((at_ 0x00 [0x45, 0x00]).setReg 7 0).setReg 0 0xAB) (fun t => (t.reg 7, t.load 0xFF)) = some (0xFF, 0xAB) := by
  decide

/-- 2.5: PUSH R7 stores the decremented SP, and a PUSH onto its own operand byte. -/
theorem test_push_corners :
    seen (at_ 0x00 [0x45, 0x07]) (fun t => (t.reg 7, t.load 0xF3)) = some (0xF3, 0xF3) ∧
      seen (((at_ 0x00 [0x45, 0x00]).setReg 7 2).setReg 0 0x11) (fun t => (t.reg 7, t.load 0x01, t.pc)) =
        some (0x01, 0x11, 0x02) := by decide

/-- 2.5: POP R1 keeps the cell, and wraps at SP = FF. -/
theorem test_pop :
    seen (((at_ 0x05 [0x46, 0x01]).setReg 7 0xF3).store 0xF3 9) (fun t => (t.reg 1, t.reg 7, t.load 0xF3, t.pc)) =
        some (9, 0xF4, 9, 7) ∧
      seen (((at_ 0x02 [0x46, 0x01]).setReg 7 0xFF).store 0xFF 0xAB) (fun t => (t.reg 1, t.reg 7)) = some (0xAB, 0x00) := by
  decide

/-- 2.5: POP R7 increments the loaded byte, and POP on the empty stack is not detected. -/
theorem test_pop_corners :
    seen (((at_ 0x00 [0x46, 0x07]).setReg 7 0xF3).store 0xF3 0x20) (fun t => t.reg 7) = some 0x21 ∧
      seen (at_ 0x00 [0x46, 0x00]) (fun t => (t.reg 0, t.reg 7)) = some (0x00, 0xF5) := by decide

/-- 2.4 and 2.3: PRN of an unsigned value, and at FE where the advance wraps. -/
theorem test_prn :
    seen ((at_ 0x03 [0x47, 0x01]).setReg 1 0xFF) (fun t => (t.output, t.pc)) = some ([0xFF], 0x05) ∧
      seen ((at_ 0xFE [0x47, 0x00]).setReg 0 0x2A) (fun t => (t.output, t.pc)) = some ([0x2A], 0x00) := by decide

/-- 2.6: CALL R1, and a return address that wraps. -/
theorem test_call :
    seen ((at_ 0x03 [0x50, 0x01]).setReg 1 8) (fun t => (t.reg 7, t.load 0xF3, t.pc)) = some (0xF3, 0x05, 0x08) ∧
      seen (at_ 0xFE [0x50, 0x01]) (fun t => (t.reg 7, t.load 0xF3, t.pc)) = some (0xF3, 0x00, 0x00) := by decide

/-- 2.6: CALL R7 jumps to the decremented SP, and a CALL to its own address is not advanced over. -/
theorem test_call_corners :
    seen (at_ 0x00 [0x50, 0x07]) (fun t => (t.reg 7, t.load 0xF3, t.pc)) = some (0xF3, 0x02, 0xF3) ∧
      seen ((at_ 0x20 [0x50, 0x02]).setReg 2 0x20) (fun t => (t.load 0xF3, t.pc)) = some (0x22, 0x20) := by decide

/-- 2.4 and 2.3: LDI R0, 8, and an LDI whose operand bytes wrap to 00 and 01. -/
theorem test_ldi :
    seen (at_ 0x00 [0x82, 0x00, 0x08]) (fun t => (t.reg 0, t.pc)) = some (8, 3) ∧
      seen (at_ 0xFF [0x82, 0x03, 0x77]) (fun t => (t.reg 3, t.pc)) = some (0x77, 0x02) := by decide

/-- 2.2: MUL R2, R3 with FL kept, and MUL R7, R0 on the stack pointer. -/
theorem test_mul :
    seen ((((at_ 0x10 [0xA2, 0x02, 0x03]).setReg 2 6).setReg 3 7).setFl 4)
        (fun t => (t.reg 2, t.reg 3, t.pc, t.fl)) = some (0x2A, 7, 0x13, 4) ∧
      seen ((at_ 0x10 [0xA2, 0x07, 0x00]).setReg 0 2) (fun t => t.reg 7) = some 0xE8 := by decide

/-- 2.2 and 2.1: CMP gives less, and 0x80 against 0x7F gives greater from any earlier FL. -/
theorem test_cmp :
    seen (((at_ 0x10 [0xA7, 0x02, 0x03]).setReg 2 6).setReg 3 7) (fun t => (t.fl, t.reg 2, t.pc)) = some (0x04, 6, 0x13) ∧
      seen ((((at_ 0x10 [0xA7, 0x02, 0x03]).setReg 2 0x80).setReg 3 0x7F).setFl 4) (fun t => t.fl) = some 0x02 := by decide

/-- 2.7: the unknown opcode C0 is found before any operand is looked at. -/
theorem test_unknown :
    seen (at_ 0x20 [0xC0, 8, 8, 8]) record = some (.faulted, 1, 0xC0, 0x20, 0x20) := by decide

/-- 2.2: of two bad operands the first is reported; a bad second one is reported by itself. -/
theorem test_outOfBounds :
    seen (at_ 0x10 [0xA7, 0x09, 0x0A]) (fun t => (t.faultCause, t.faultOpcode, t.faultOperand)) = some (4, 0xA7, 9) ∧
      seen (at_ 0x10 [0xA2, 0x02, 0x08]) (fun t => (t.faultCause, t.faultOpcode, t.faultOperand)) = some (4, 0xA2, 8) := by
  decide

/-! The ALU functions no instruction reaches: section 2.1 -/

/-- The value an ALU operation leaves in R0 from R0 = x and R1 = y. -/
def aluR0 (op : AluOp) (x y : Byte) : Option Byte :=
  match alu op 0 1 ((State.reset.setReg 0 x).setReg 1 y) with
  | .ok t => some (t.reg 0)
  | .error _ => none

theorem test_alu_unreachable :
    aluR0 .add 0xC8 0x64 = some 0x2C ∧ aluR0 .sub 0x03 0x05 = some 0xFE ∧ aluR0 .div 0xFF 0x10 = some 0x0F ∧
      aluR0 .div 0x03 0x05 = some 0x00 ∧ aluR0 .div 0x05 0x00 = none := by decide

theorem test_aluNamed : aluOpNamed "SUB" = some .sub ∧ aluOpNamed "XOR" = none := by decide

/-! Loading and starting: section 2.8 -/

theorem test_writeMemory :
    (nextOf (writeMemory 0xFE [1, 2] State.reset)).map (fun t => (t.load 0xFE, t.load 0xFF)) = some (1, 2) ∧
      writeMemory 0xFF [1, 2] State.reset = .refused .writeMemoryPastEnd := by
  constructor
  · decide
  · rfl

theorem test_withFetchWord :
    seen (State.reset.withFetchWord 24 0x080082) (fun t => (t.reg 0, t.pc)) = some (8, 3) := by decide

/-! Witnesses: for each obligation with hypotheses, a concrete input that meets them, at the edges of their ranges -/

theorem witness_DecodedBytesAreTheEncoding :
    decode defaultOpcodes [0x82, 0xFF, 0xFF, 0x01] = .ok (.ldi 255 255, [0x01]) := by rfl

theorem witness_OnlyNineOpcodesRecognised :
    (∀ h : Handler, (0xFF : Byte) ≠ opcodeOf defaultOpcodes h) ∧ decode defaultOpcodes [0x11] = .ok (.ret, []) := by
  refine ⟨fun h => ?_, rfl⟩
  cases h <;> decide

theorem witness_InstrAtPcIsDecoded : InstrAtPc defaultOpcodes (.mul 255 0) (at_ 0xFE [0xA2, 0xFF, 0x00]) := by
  unfold InstrAtPc; decide

theorem witness_StepRunsDecodedInstruction :
    (at_ 0xFF [0x82, 0x03, 0x77]).runState = .running ∧ InstrAtPc defaultOpcodes (.ldi 3 0x77) (at_ 0xFF [0x82, 0x03, 0x77]) := by
  refine ⟨rfl, ?_⟩
  unfold InstrAtPc; decide

theorem witness_StepAnswersWhileRunning : (at_ 0x00 []).runState = .running := rfl

theorem witness_NoStepOutsideRunning :
    State.reset.runState = .idle ∧ (State.reset.setRunState .halted).runState = .halted ∧
      (State.reset.setRunState .faulted).runState = .faulted := ⟨rfl, rfl, rfl⟩

theorem witness_UnknownOpcodeFaults :
    (at_ 0xFF []).runState = .running ∧ ∀ h : Handler, (at_ 0xFF []).load 0xFF ≠ opcodeOf defaultOpcodes h := by
  refine ⟨rfl, fun h => ?_⟩
  cases h <;> decide

theorem witness_OutOfBoundsOperandFaults :
    (at_ 0x10 [0xA7, 0x08, 0xFF]).runState = .running ∧ InstrAtPc defaultOpcodes (.cmp 8 255) (at_ 0x10 [0xA7, 0x08, 0xFF]) ∧
      (Instr.cmp 8 255).regOperands.find? (fun b => !namesReg b) = some 8 := by
  refine ⟨rfl, ?_, by decide⟩
  unfold InstrAtPc; decide

/-- The premise of RunStateAfterStep, PcAfterStep, FlWrittenByCmpReadByNone, OutputGrowsOnlyByPrn,
MemoryChangedOnlyByPushCall and RegistersWrittenPerInstruction: a step that answers. -/
theorem witness_steps :
    (∃ t, controllerStep defaultOpcodes (at_ 0x05 [0x01]) = .next t ∧ decide (t.runState = .halted) = true) ∧
      (∃ t, controllerStep defaultOpcodes (at_ 0x05 [0x82, 0x08, 0x00]) = .next t ∧ decide (t.runState = .faulted) = true) ∧
      (∃ t, controllerStep defaultOpcodes (at_ 0x05 []) = .next t ∧ decide (t.runState = .faulted) = true) :=
  ⟨exists_next (by decide), exists_next (by decide), exists_next (by decide)⟩

theorem witness_PcAfterStep :
    ∃ t, controllerStep defaultOpcodes (at_ 0xFE [0x50, 0x07]) = .next t ∧
      decide (t.runState ≠ .faulted ∧ instrAt defaultOpcodes (at_ 0xFE [0x50, 0x07]) = some (.call 7)) = true :=
  exists_next (by decide)

/-- Each clause of AdvanceByOperandCount. -/
theorem witness_AdvanceByOperandCount :
    (∃ t, controllerStep defaultOpcodes (at_ 0xFF [0x01]) = .next t ∧
      decide (t.runState ≠ .faulted ∧ instrAt defaultOpcodes (at_ 0xFF [0x01]) = some .hlt) = true) ∧
    (∃ t, controllerStep defaultOpcodes (at_ 0xFE [0x50, 0x08]) = .next t ∧ decide (t.runState = .faulted) = true) ∧
    (∃ t, controllerStep defaultOpcodes (at_ 0xFE [0x50, 0x07]) = .next t ∧
      decide (instrAt defaultOpcodes (at_ 0xFE [0x50, 0x07]) = some (.call (regByte 7))) = true) ∧
    ∃ t, controllerStep defaultOpcodes (at_ 0x00 [0x11]) = .next t ∧
      decide (instrAt defaultOpcodes (at_ 0x00 [0x11]) = some .ret) = true :=
  ⟨exists_next (by decide), exists_next (by decide), exists_next (by decide), exists_next (by decide)⟩

theorem witness_FlWrittenByCmpReadByNone :
    instrAt defaultOpcodes (at_ 0x00 [0xA7, 0x07, 0x00]) = some (.cmp (regByte 7) (regByte 0)) ∧
      ∃ t, controllerStep defaultOpcodes (at_ 0x00 [0xA7, 0x07, 0x00]) = .next t ∧ decide (t.fl = 0x02) = true :=
  ⟨by decide, exists_next (by decide)⟩

theorem witness_OutputGrowsOnlyByPrn :
    instrAt defaultOpcodes (at_ 0x00 [0x47, 0x07]) = some (.prn (regByte 7)) ∧
      ∃ t, controllerStep defaultOpcodes (at_ 0x00 [0x47, 0x07]) = .next t ∧ decide (t.output = [0xF4]) = true :=
  ⟨by decide, exists_next (by decide)⟩

theorem witness_MemoryChangedOnlyByPushCall :
    (at_ 0x00 [0x50, 0x00]).mem.wf = true ∧
      ∃ t, controllerStep defaultOpcodes (at_ 0x00 [0x50, 0x00]) = .next t ∧
        decide (t.load 0xF3 ≠ (at_ 0x00 [0x50, 0x00]).load 0xF3) = true :=
  ⟨by decide, exists_next (by decide)⟩

theorem witness_RegistersWrittenPerInstruction :
    ∃ t, controllerStep defaultOpcodes (at_ 0x00 [0x82, 0x07, 0xFF]) = .next t ∧
      decide (t.reg 7 ≠ (at_ 0x00 [0x82, 0x07, 0xFF]).reg 7) = true :=
  exists_next (by decide)

theorem witness_OnlyTwoFaultsReachable :
    (∃ t, controllerStep defaultOpcodes (at_ 0x03 [0x00]) = .next t ∧ decide (t.runState = .faulted) = true) ∧
      ∃ t, controllerStep defaultOpcodes (at_ 0x00 [0x45, 0x08]) = .next t ∧ decide (t.runState = .faulted) = true :=
  ⟨exists_next (by decide), exists_next (by decide)⟩

/-- The premises of PushStores, PopLoads, PrnEmits, CallPushesReturnAddress, LdiLoadsImmediate, MulMultiplies and
CmpCompares: memory in canonical form, and the least and the greatest byte that names no register. -/
theorem witness_instructions :
    (at_ 0xF2 [0x45, 0x07]).mem.wf = true ∧ 8 ≤ (8 : Byte).toNat ∧ 8 ≤ (255 : Byte).toNat := by decide

/-- Each clause of CmpCompares: equal, greater, less. -/
theorem witness_CmpCompares :
    State.reset.reg 0 = State.reset.reg 1 ∧ (State.reset.reg 0).toNat < (State.reset.reg 7).toNat := by decide

theorem witness_AluDivides : State.reset.reg 7 ≠ 0 ∧ State.reset.reg 0 = 0 := by decide

/-- Each clause of AluSameRegisterTwice. -/
theorem witness_AluSameRegisterTwice : State.reset.reg 7 ≠ 0 ∧ State.reset.reg 6 = 0 := by decide

theorem witness_AluOtherNameUnsupported : "MOD" ∉ ["ADD", "SUB", "MUL", "DIV", "CMP"] := by decide

theorem witness_MemoryIsCanonical :
    Memory.wf [(0, 1), (255, 255)] = true ∧ ∀ a, Memory.read [(0, 1), (255, 255)] a = Memory.read [(0, 1), (255, 255)] a :=
  ⟨by decide, fun _ => rfl⟩

theorem witness_AddressesWrap :
    (6 : Reg) ≠ 7 ∧ State.reset.mem.wf = true ∧ (State.reset.setReg 7 0).sp = 0x00 ∧ (State.reset.setReg 7 0xFF).sp = 0xFF ∧
      (State.reset.setPc 0xFE).pc = 0xFE ∧ (State.reset.setPc 0xFF).pc = 0xFF := by decide

/-- The premise of PushPopRoundTrip, CallReturnLaw and PushThenRetJumps, and that the state after the push itself meets the
inner one. -/
theorem witness_stackLaws :
    (6 : Reg) ≠ 7 ∧ State.reset.mem.wf = true ∧
      (∃ t, exec (.push (regByte 6)) State.reset = .next t ∧ decide (t.sp = 0xF3) = true) ∧
      ∃ t, exec (.call (regByte 7)) State.reset = .next t ∧ decide (t.sp = 0xF3) = true :=
  ⟨by decide, by decide, exists_next (by decide), exists_next (by decide)⟩

theorem witness_PushOverItsOwnOperand :
    ((at_ 0x00 [0x45, 0x00]).setReg 7 2).mem.wf = true ∧ ((at_ 0x00 [0x45, 0x00]).setReg 7 2).runState = .running ∧
      InstrAtPc defaultOpcodes (.push (regByte 0)) ((at_ 0x00 [0x45, 0x00]).setReg 7 2) ∧
      ((at_ 0x00 [0x45, 0x00]).setReg 7 2).sp = ((at_ 0x00 [0x45, 0x00]).setReg 7 2).pc + 2 := by
  refine ⟨by decide, rfl, ?_, by decide⟩
  unfold InstrAtPc; decide

theorem witness_RunStartsOnlyFromIdle : State.reset.runState = .idle ∧ (at_ 0x00 []).runState ≠ .idle := by decide

theorem witness_WriteMemoryStores :
    State.reset.mem.wf = true ∧ State.reset.runState = .idle ∧ (0xFE : Addr).toNat + [(1 : Byte), 2].length ≤ 256 := by decide

theorem witness_WriteMemoryRefusedOtherwise :
    (at_ 0x00 []).runState ≠ .idle ∧ State.reset.runState = .idle ∧ 256 < (0xFF : Addr).toNat + [(1 : Byte), 2].length := by
  decide

theorem witness_RunEndsAndStays :
    ((runToEnd defaultOpcodes 1 (at_ 0x05 [0x01])).any fun t => decide (t.runState = .halted)) = true ∧
      ((runToEnd defaultOpcodes 0 (State.reset.setRunState .faulted)).any fun t => decide (t.runState = .faulted)) = true := by
  decide

/-- The other premises of RunEndsAndStays: ended, not ended, and a step that answers. -/
theorem witness_RunEndsAndStays_steps :
    (State.reset.setRunState .halted).runState = .halted ∧ (State.reset.setRunState .faulted).runState = .faulted ∧
      State.reset.runState = .idle ∧ (at_ 0x05 [0x01]).runState = .running ∧
      ∃ t, controllerStep defaultOpcodes (at_ 0x05 [0x01]) = .next t ∧ decide (t.runState = .halted) = true :=
  ⟨rfl, rfl, rfl, rfl, exists_next (by decide)⟩

/-- The premises of OutPinsShowRunStateAndRecord: an unrecognised byte at `pc`, and an operand that names no register. -/
theorem witness_OutPinsShowRunStateAndRecord :
    (InPins.mk false true true 0xFF 0xFF).rst = false ∧ (at_ 0xFF []).runState = .running ∧
      instrAt defaultOpcodes (at_ 0xFF []) = none ∧ InstrAtPc defaultOpcodes (.mul 7 8) (at_ 0x10 [0xA2, 0x07, 0x08]) ∧
      (Instr.mul 7 8).regOperands.find? (fun b => !namesReg b) = some 8 := by
  refine ⟨rfl, rfl, by decide, ?_, by decide⟩
  unfold InstrAtPc; decide

/-- Each clause of ClockEdgeFollowsPins, and the premise of OutPortShowsWhatPrnEmits. -/
theorem witness_ClockEdgeFollowsPins :
    (InPins.mk true false false 0 0).rst = true ∧ (InPins.mk false true true 0xFF 0xFF).rst = false ∧
      (at_ 0x00 []).runState = .running ∧ State.reset.runState = .idle ∧ (State.reset.setRunState .halted).runState = .halted :=
  ⟨rfl, rfl, rfl, rfl, rfl⟩

theorem witness_PlacedWordRuns : State.reset.mem.wf = true ∧ decodeTableWord 24 0xFF0782 = some (.ldi 7 255) := by
  constructor <;> rfl

/-- A state in `Faulted` meets the invariant too, so its last clause is not empty. -/
theorem witness_StepKeepsInvariant :
    Inv defaultOpcodes (at_ 0x05 [0x01]) ∧
      (∃ t, step (at_ 0x05 [0x01]) = .next t ∧ decide (t.runState = .halted) = true) ∧
      Inv defaultOpcodes (raiseFault .outOfBounds (some 8) (at_ 0x05 [0x47, 0x08])) := by
  refine ⟨⟨by decide, .inl rfl, fun h => by cases h⟩, exists_next (by decide), ⟨by decide, .inl rfl, fun _ => ⟨rfl, rfl, .inr ?_⟩⟩⟩
  exact ⟨rfl, by decide, by decide⟩

theorem witness_BoundaryKeepsInvariant :
    Inv defaultOpcodes State.reset ∧ (∃ t, writeMemory 0 [0x01] State.reset = .next t ∧ decide (t.load 0 = 0x01) = true) ∧
      ((invokeRun defaultOpcodes 2 ((at_ 0x05 [0x01]).setRunState .idle)).any fun t => decide (t.pc = 0x06)) = true :=
  ⟨⟨by decide, .inl rfl, fun h => by cases h⟩, exists_next (by decide), by decide⟩

theorem witness_StepDependsOnRegistersPcMemory :
    SameCourse (at_ 0x00 [0x47, 0x07]) (((at_ 0x00 [0x47, 0x07]).setFl 4).emit 9) ∧
      ∃ t, controllerStep defaultOpcodes (at_ 0x00 [0x47, 0x07]) = .next t ∧ decide (t.output = [0xF4]) = true :=
  ⟨⟨rfl, rfl, rfl, rfl⟩, exists_next (by decide)⟩

theorem witness_RunDependsOnRegistersPcMemory :
    SameCourse (at_ 0x05 [0x01]) (((at_ 0x05 [0x01]).setFl 4).emit 9) ∧
      ((runToEnd defaultOpcodes 1 (at_ 0x05 [0x01])).any fun t => decide (t.runState = .halted)) = true :=
  ⟨⟨rfl, rfl, rfl, rfl⟩, by decide⟩

end Sys2Proof.Tests
end

/-! SUPPORT. State: what the fault entry and the loads of this family leave in each field. -/

namespace Sys2Proof.Machine

section Fields
variable (cause : FaultCause) (operand : Option Byte) (s : State)

@[simp] theorem raiseFault_regs : (raiseFault cause operand s).regs = s.regs := rfl
@[simp] theorem raiseFault_pc : (raiseFault cause operand s).pc = s.pc := rfl
@[simp] theorem raiseFault_fl : (raiseFault cause operand s).fl = s.fl := rfl
@[simp] theorem raiseFault_runState : (raiseFault cause operand s).runState = .faulted := rfl
@[simp] theorem raiseFault_mem : (raiseFault cause operand s).mem = s.mem := rfl
@[simp] theorem raiseFault_output : (raiseFault cause operand s).output = s.output := rfl
@[simp] theorem raiseFault_reg (q : Reg) : (raiseFault cause operand s).reg q = s.reg q := rfl

@[simp] theorem State.setPc_sp (v : Addr) : (s.setPc v).sp = s.sp := rfl
@[simp] theorem State.advance_sp (n : Nat) : (s.advance n).sp = s.sp := rfl
@[simp] theorem State.decSp_eq_setReg : s.decSp = s.setReg Config.spIndex (s.sp - 1) := rfl
@[simp] theorem State.incSp_eq_setReg : s.incSp = s.setReg Config.spIndex (s.sp + 1) := rfl

@[simp] theorem State.setReg_spIndex_sp (v : Byte) : (s.setReg Config.spIndex v).sp = v := s.setReg_reg_same _ v

@[simp] theorem State.setReg_sp_other {r : Reg} (h : r ≠ 7) (v : Byte) : (s.setReg r v).sp = s.sp :=
  s.setReg_reg_other h.symm v

@[simp] theorem pushByte_sp (v : State → Byte) : (s.pushByte v).sp = s.sp - 1 :=
  (pushByte_reg s v Config.spIndex).trans (if_pos rfl)

/-- The byte at `pc` itself (rules R43, R102). -/
@[simp] theorem State.codeByte_zero : s.codeByte 0 = s.load s.pc := congrArg s.load (BitVec.add_zero s.pc)

/-- Storing bytes changes memory alone. -/
theorem State.storeBytes_frame (a : Addr) (vs : List Byte) :
    s.storeBytes a vs = { s with mem := (s.storeBytes a vs).mem } := by
  induction vs generalizing s a with
  | nil => rfl
  | cons v vs ih => exact ih (s.store a v) (a + 1)

end Fields

end Sys2Proof.Machine

/-! SUPPORT. Decoding and fetching: bytes decode exactly if they are an encoding, and a fetch reads exactly one encoding. -/

namespace Sys2Proof

theorem formatF1_eq_some {k : Byte → Instr} {bytes rest : List Byte} {i : Instr} :
    formatF1 k bytes = some (i, rest) ↔ ∃ o, i = k o ∧ bytes = o :: rest := by
  cases bytes with
  | nil => simp [formatF1]
  | cons o bytes => simp [formatF1, eq_comm]

theorem formatF2_eq_some {k : Byte → Byte → Instr} {bytes rest : List Byte} {i : Instr} :
    formatF2 k bytes = some (i, rest) ↔ ∃ o o', i = k o o' ∧ bytes = o :: o' :: rest := by
  match bytes with
  | [] => simp [formatF2]
  | [o] => simp [formatF2]
  | o :: o' :: bytes => simp [formatF2, eq_comm]

/-- The operand reader of a handler reads an instruction of that handler and its operand bytes (rules R62, R72). -/
theorem readOperands_eq_some {h : Handler} {bytes rest : List Byte} {i : Instr} :
    readOperands h bytes = some (i, rest) ↔ i.handler = h ∧ bytes = i.operands ++ rest := by
  constructor
  · intro e
    cases h with
    | hlt | ret => cases e; exact ⟨rfl, rfl⟩
    | push | pop | prn | call => obtain ⟨o, rfl, rfl⟩ := formatF1_eq_some.1 e; exact ⟨rfl, rfl⟩
    | ldi | mul | cmp => obtain ⟨o, o', rfl, rfl⟩ := formatF2_eq_some.1 e; exact ⟨rfl, rfl⟩
  · rintro ⟨rfl, rfl⟩
    cases i <;> rfl

/-- Bytes decode to `i` exactly if they are the encoding of `i` followed by the bytes left over. -/
theorem decode_eq_ok {ops : Opcodes} {bytes rest : List Byte} {i : Instr} :
    decode ops bytes = .ok (i, rest) ↔ bytes = encode ops i ++ rest := by
  constructor
  · intro e
    unfold decode at e
    split at e
    · cases e
    · split at e
      · cases e
      · next h hop =>
        split at e
        · cases e
        · next r hr =>
          cases e
          obtain ⟨rfl, rfl⟩ := readOperands_eq_some.1 hr
          rw [dispatch_eq_some.1 hop]
          rfl
  · rintro rfl
    have hr : readOperands i.handler (i.operands ++ rest) = some (i, rest) := readOperands_eq_some.2 ⟨rfl, rfl⟩
    simp [encode, decode, dispatch_opcodeOf, hr]

/-- An encoding is one byte longer than its opcode's operand count (rule R60). -/
theorem encode_length (ops : Opcodes) (i : Instr) :
    (encode ops i).length = 1 + operandField (opcodeOf ops i.handler) := by
  cases i with
  | hlt => exact Laws.EncodedLength.hlt ops
  | ret => exact Laws.EncodedLength.ret ops
  | push r => exact Laws.EncodedLength.push r ops
  | pop r => exact Laws.EncodedLength.pop r ops
  | prn r => exact Laws.EncodedLength.prn r ops
  | call r => exact Laws.EncodedLength.call r ops
  | ldi r imm => exact Laws.EncodedLength.ldi r imm ops
  | mul a b => exact Laws.EncodedLength.mul a b ops
  | cmp a b => exact Laws.EncodedLength.cmp a b ops

/-- As many bytes as the opcode's operand count are the operands of an instruction with that opcode. -/
theorem exists_operands_eq (ops : Opcodes) (h : Handler) {bytes : List Byte}
    (hlen : bytes.length = operandField (opcodeOf ops h)) : ∃ i : Instr, i.handler = h ∧ i.operands = bytes := by
  obtain ⟨hret, hpush, hpop, hcall, hmul, hcmp⟩ := ops.counts
  obtain ⟨hhlt, hprn, hldi⟩ : operandField opHlt = 0 ∧ operandField opPrn = 1 ∧ operandField opLdi = 2 := by decide
  cases h with
  | hlt => exact ⟨.hlt, rfl, (List.length_eq_zero_iff.1 (hlen.trans hhlt)).symm⟩
  | ret => exact ⟨.ret, rfl, (List.length_eq_zero_iff.1 (hlen.trans hret)).symm⟩
  | push => obtain ⟨o, rfl⟩ := List.length_eq_one_iff.1 (hlen.trans hpush); exact ⟨.push o, rfl, rfl⟩
  | pop => obtain ⟨o, rfl⟩ := List.length_eq_one_iff.1 (hlen.trans hpop); exact ⟨.pop o, rfl, rfl⟩
  | prn => obtain ⟨o, rfl⟩ := List.length_eq_one_iff.1 (hlen.trans hprn); exact ⟨.prn o, rfl, rfl⟩
  | call => obtain ⟨o, rfl⟩ := List.length_eq_one_iff.1 (hlen.trans hcall); exact ⟨.call o, rfl, rfl⟩
  | ldi => obtain ⟨o, o', rfl⟩ := List.length_eq_two.1 (hlen.trans hldi); exact ⟨.ldi o o', rfl, rfl⟩
  | mul => obtain ⟨o, o', rfl⟩ := List.length_eq_two.1 (hlen.trans hmul); exact ⟨.mul o o', rfl, rfl⟩
  | cmp => obtain ⟨o, o', rfl⟩ := List.length_eq_two.1 (hlen.trans hcmp); exact ⟨.cmp o o', rfl, rfl⟩

namespace Machine

/-- A fetch reads the opcode at `pc` first. -/
theorem fetch_eq_cons (ops : Opcodes) (s : State) :
    fetch ops s = s.load s.pc :: (List.range (fetchCount ops (s.load s.pc))).map fun k => s.codeByte (k + 1) := by
  simp [fetch, Nat.add_comm 1, List.range_succ_eq_map, Function.comp_def]

/-- The operand count of a recognised opcode is what a fetch reads after it (rules R65, R103). -/
theorem fetchCount_opcodeOf (ops : Opcodes) (h : Handler) :
    fetchCount ops (opcodeOf ops h) = operandField (opcodeOf ops h) := by
  simp [fetchCount, dispatch_opcodeOf]

/-- Where the opcode of `i` stands at `pc`, a fetch reads as many bytes as `i` has. -/
theorem fetch_of_opcode {ops : Opcodes} {s : State} {i : Instr} (h : s.load s.pc = opcodeOf ops i.handler) :
    fetch ops s = (List.range (encode ops i).length).map s.codeByte := by
  rw [encode_length, fetch, State.codeByte_zero, h, fetchCount_opcodeOf]

/-- The bytes of `i` at `pc` begin with its opcode. -/
theorem InstrAtPc.opcode {ops : Opcodes} {i : Instr} {s : State} (h : InstrAtPc ops i s) :
    s.load s.pc = opcodeOf ops i.handler := by
  have h0 : ((List.range (encode ops i).length).map s.codeByte)[0]? = (encode ops i)[0]? := congrArg (·[0]?) h
  simpa [encode] using h0

/-- The instruction a step would run is what the decoder reads. -/
theorem instrAt_eq_some_decode {ops : Opcodes} {s : State} {i : Instr} :
    instrAt ops s = some i ↔ ∃ rest, decode ops (fetch ops s) = .ok (i, rest) := by
  unfold instrAt
  cases decode ops (fetch ops s) with
  | error e => simp
  | ok r => simp [Prod.ext_iff]

/-- The instruction a step would run is the one whose bytes stand at `pc`. -/
theorem instrAt_eq_some {ops : Opcodes} {i : Instr} {s : State} : instrAt ops s = some i ↔ InstrAtPc ops i s := by
  rw [instrAt_eq_some_decode]
  constructor
  · rintro ⟨rest, h⟩
    rw [decode_eq_ok] at h
    have hop : s.load s.pc = opcodeOf ops i.handler := (List.cons.inj ((fetch_eq_cons ops s).symm.trans h)).1
    rw [fetch_of_opcode hop] at h
    have hrest : rest = [] := by simpa using congrArg List.length h
    simpa [InstrAtPc, hrest] using h
  · intro h
    exact ⟨[], by rw [decode_eq_ok, fetch_of_opcode h.opcode, List.append_nil]; exact h⟩

/-- The opcode at `pc` of the instruction a step would run. -/
theorem load_pc_of_instrAt {ops : Opcodes} {i : Instr} {s : State} (h : instrAt ops s = some i) :
    s.load s.pc = opcodeOf ops i.handler :=
  (instrAt_eq_some.1 h).opcode

/-- A step finds no instruction exactly if the byte at `pc` is no opcode: a fetch is never too short (rule R103). -/
theorem instrAt_eq_none {ops : Opcodes} {s : State} : instrAt ops s = none ↔ dispatch ops (s.load s.pc) = none := by
  constructor
  · intro hnone
    cases hd : dispatch ops (s.load s.pc) with
    | none => rfl
    | some h =>
      have hop : s.load s.pc = opcodeOf ops h := dispatch_eq_some.1 hd
      obtain ⟨i, rfl, hi⟩ := exists_operands_eq ops h
        (bytes := (List.range (fetchCount ops (s.load s.pc))).map fun k => s.codeByte (k + 1))
        (by rw [List.length_map, List.length_range, hop, fetchCount_opcodeOf])
      have hsome : instrAt ops s = some i :=
        instrAt_eq_some_decode.2 ⟨[], decode_eq_ok.2 (by rw [fetch_eq_cons, encode, hop, hi, hop, List.append_nil])⟩
      exact absurd hsome (by simp [hnone])
  · intro hd
    cases hi : instrAt ops s with
    | none => rfl
    | some i => simp [load_pc_of_instrAt hi, dispatch_opcodeOf] at hd

end Machine

end Sys2Proof

/-! SUPPORT. Everything a step can do, as relations: an instruction completes, or a fatal condition is taken. -/

namespace Sys2Proof.Machine

@[simp] theorem namesReg_regByte (r : Reg) : namesReg (regByte r) = true := by
  simp only [namesReg, regByte_toNat]
  exact decide_eq_true r.isLt

theorem namesReg_eq_false {o : Byte} : namesReg o = false ↔ 8 ≤ o.toNat := by simp [namesReg]

/-- The first register operand of `i` that names no register is `o` (rules R64, R158). -/
def FirstBadOperand (i : Instr) (o : Byte) : Prop := i.regOperands.find? (fun b => !namesReg b) = some o

theorem FirstBadOperand.ge {i : Instr} {o : Byte} (h : FirstBadOperand i o) : 8 ≤ o.toNat :=
  namesReg_eq_false.1 (by simpa using List.find?_some h)

theorem FirstBadOperand.not_wellFormed {i : Instr} {o : Byte} (h : FirstBadOperand i o) : i.wellFormed = false := by
  rw [Instr.wellFormed, List.all_eq_false]
  exact ⟨o, List.mem_of_find?_eq_some h, by simp [namesReg_eq_false.2 h.ge]⟩

theorem exists_firstBadOperand {i : Instr} {o : Byte} (hmem : o ∈ i.regOperands) (ho : 8 ≤ o.toNat) :
    ∃ o', FirstBadOperand i o' :=
  Option.isSome_iff_exists.1 (List.find?_isSome.2 ⟨o, hmem, by simp [namesReg_eq_false.2 ho]⟩)

/-- The one-register form raises `OutOfBounds` for an operand that names no register. -/
theorem withReg_of_firstBad {o₁ o : Byte} (h : [o₁].find? (fun b => !namesReg b) = some o) (s : State)
    (k : Reg → Host.Outcome State Fault Refusal) :
    withReg o₁ s k = .next (raiseFault .outOfBounds (some o) s) := by
  have ho : namesReg o₁ = false ∧ o₁ = o := by simpa using h
  obtain ⟨hbad, rfl⟩ := ho
  exact withReg_of_ge (namesReg_eq_false.1 hbad) s k

/-- The two-register form raises `OutOfBounds` for the first operand that names no register (rule R158). -/
theorem withRegs_of_firstBad {o₁ o₂ o : Byte} (h : [o₁, o₂].find? (fun b => !namesReg b) = some o) (s : State)
    (k : Reg → Reg → Host.Outcome State Fault Refusal) :
    withRegs o₁ o₂ s k = .next (raiseFault .outOfBounds (some o) s) := by
  obtain ⟨hge, e⟩ | ⟨r, hr, e⟩ := withReg_cases o₁ s fun a => withReg o₂ s fun b => k a b
  · have ho : o₁ = o := by simpa [List.find?, namesReg_eq_false.2 hge] using h
    exact ho ▸ e
  · rw [List.find?_cons_of_neg (by simp [eq_regByte hr])] at h
    exact e.trans (withReg_of_firstBad h s _)

/-- An instruction with an operand that names no register raises `OutOfBounds` for the first one (rules R154, R158). -/
theorem exec_of_firstBadOperand {i : Instr} {o : Byte} (h : FirstBadOperand i o) (s : State) :
    exec i s = .next (raiseFault .outOfBounds (some o) s) := by
  cases i with
  | hlt | ret => cases h
  | push | pop | prn | call | ldi => exact withReg_of_firstBad h s _
  | mul | cmp => exact withRegs_of_firstBad h s _

/-- `i`, every register operand of which names a register, takes `s` to `t` by its effect and its advance. -/
inductive Completes (s : State) : Instr → State → Prop
  | hlt : Completes s .hlt ((s.setRunState .halted).advance 0)
  | ret : Completes s .ret (s.setPc s.top).incSp
  | push (r : Reg) : Completes s (.push (regByte r)) ((s.pushByte fun t => t.reg r).advance 1)
  | pop (r : Reg) : Completes s (.pop (regByte r)) ((s.setReg r s.top).incSp.advance 1)
  | prn (r : Reg) : Completes s (.prn (regByte r)) ((s.emit (s.reg r)).advance 1)
  | call (r : Reg) : Completes s (.call (regByte r))
      ((s.pushByte fun t => t.pc + 2).setPc ((s.pushByte fun t => t.pc + 2).reg r))
  | ldi (r : Reg) (imm : Byte) : Completes s (.ldi (regByte r) imm) ((s.setReg r imm).advance 2)
  | mul (a b : Reg) : Completes s (.mul (regByte a) (regByte b)) ((s.setReg a (s.reg a * s.reg b)).advance 2)
  | cmp (a b : Reg) : Completes s (.cmp (regByte a) (regByte b))
      ((s.setFl (cmpFlags (s.reg a) (s.reg b))).advance 2)

/-- `exec` has the effect that `Completes` describes. -/
theorem Completes.exec_eq {i : Instr} {s t : State} (h : Completes s i t) : exec i s = .next t := by
  cases h with
  | hlt | ret => rfl
  | push r | pop r | prn r | call r | ldi r => exact withReg_of_eq (regByte_toNat r) s _
  | mul a b | cmp a b =>
    exact (withReg_of_eq (regByte_toNat a) s _).trans (withReg_of_eq (regByte_toNat b) s _)

/-- An instruction raises `OutOfBounds` for its first bad operand, or it completes. -/
theorem exec_faults_or_completes (i : Instr) (s : State) :
    (∃ o, FirstBadOperand i o) ∨ ∃ t, Completes s i t := by
  obtain ⟨o, hmem, ho, -⟩ | ⟨-, ⟨rfl, -⟩ | ⟨rfl, -⟩ | ⟨o, r, hr, h⟩⟩ := exec_cases i s
  · exact .inl (exists_firstBadOperand hmem ho)
  · exact .inr ⟨_, .hlt⟩
  · exact .inr ⟨_, .ret⟩
  · obtain rfl := eq_regByte hr
    obtain ⟨rfl, -⟩ | ⟨rfl, -⟩ | ⟨rfl, -⟩ | ⟨rfl, -⟩ | ⟨imm, rfl, -⟩ | ⟨o', r', hr', h'⟩ := h
    · exact .inr ⟨_, .push r⟩
    · exact .inr ⟨_, .pop r⟩
    · exact .inr ⟨_, .prn r⟩
    · exact .inr ⟨_, .call r⟩
    · exact .inr ⟨_, .ldi r imm⟩
    · obtain rfl := eq_regByte hr'
      obtain ⟨rfl, -⟩ | ⟨rfl, -⟩ := h'
      · exact .inr ⟨_, .mul r r'⟩
      · exact .inr ⟨_, .cmp r r'⟩

/-- A step in `Running` takes `s` to `t`: the byte at `pc` is no opcode, the instruction there has an operand that names no
register, or that instruction completes. -/
inductive StepsTo (ops : Opcodes) (s : State) : State → Prop
  | unknown (hi : instrAt ops s = none) : StepsTo ops s (raiseFault .unknownInstruction none s)
  | outOfBounds {i : Instr} {o : Byte} (hi : instrAt ops s = some i) (ho : FirstBadOperand i o) :
      StepsTo ops s (raiseFault .outOfBounds (some o) s)
  | completes {i : Instr} {t : State} (hi : instrAt ops s = some i) (hc : Completes s i t) : StepsTo ops s t

/-- In `Running` the step answers what `StepsTo` describes. -/
theorem StepsTo.controllerStep_eq {ops : Opcodes} {s t : State} (hr : s.runState = .running) (h : StepsTo ops s t) :
    controllerStep ops s = .next t := by
  rw [controllerStep_of_running ops hr]
  cases h with
  | unknown hi => rw [hi]
  | outOfBounds hi ho => rw [hi]; exact exec_of_firstBadOperand ho s
  | completes hi hc => rw [hi]; exact hc.exec_eq

/-- In `Running` there is a next state (rule R101). -/
theorem exists_stepsTo (ops : Opcodes) (s : State) : ∃ t, StepsTo ops s t := by
  cases hi : instrAt ops s with
  | none => exact ⟨_, .unknown hi⟩
  | some i =>
    obtain ⟨o, ho⟩ | ⟨t, hc⟩ := exec_faults_or_completes i s
    · exact ⟨_, .outOfBounds hi ho⟩
    · exact ⟨t, .completes hi hc⟩

/-- A step answers exactly in `Running`, and the answer is what `StepsTo` describes. -/
theorem controllerStep_eq_next {ops : Opcodes} {s t : State} :
    controllerStep ops s = .next t ↔ s.runState = .running ∧ StepsTo ops s t := by
  constructor
  · intro h
    have hr : s.runState = .running := (controllerStep_cases h).1
    obtain ⟨u, hu⟩ := exists_stepsTo ops s
    have htu : t = u := Host.Outcome.next.inj (h.symm.trans (hu.controllerStep_eq hr))
    exact ⟨hr, htu ▸ hu⟩
  · rintro ⟨hr, h⟩
    exact h.controllerStep_eq hr

/-! What a completed instruction does to each field. -/

section Completes
variable {s t : State} {i : Instr}

theorem Completes.wellFormed (h : Completes s i t) : i.wellFormed = true := by
  cases h <;> simp [Instr.wellFormed, Instr.regOperands]

/-- HLT alone changes the run state (rules R21, R108). -/
theorem Completes.runState (h : Completes s i t) : t.runState = if i = .hlt then .halted else s.runState := by
  cases h <;> rfl

/-- A completed instruction does not enter `Faulted`. -/
theorem Completes.not_faulted (h : Completes s i t) (hr : s.runState = .running) : t.runState ≠ .faulted := by
  rw [h.runState, hr]
  split <;> decide

/-- Only PUSH and CALL write memory, by one byte (rule R46), so the canonical form stays. -/
theorem Completes.mem_wf (h : Completes s i t) (hm : s.mem.wf = true) : t.mem.wf = true := by
  cases h with
  | push | call => exact Memory.write_wf _ _ hm
  | hlt | ret | pop | prn | ldi | mul | cmp => exact hm

/-- CMP writes one of FL's values, and no other instruction writes it (rules R19, R20). -/
theorem Completes.flLegal (h : Completes s i t) (hf : FlLegal s) : FlLegal t := by
  cases h with
  | cmp a b => exact .inr (cmpFlags_legal (s.reg a) (s.reg b))
  | hlt | ret | push | pop | prn | call | ldi | mul => exact hf

/-- A register write that changes `q` is a write of `q`. -/
theorem State.eq_of_setReg_reg_ne (s : State) {q r : Reg} {v : Byte} (h : (s.setReg r v).reg q ≠ s.reg q) : q = r :=
  by_contra fun hqr => h (s.setReg_reg_other hqr v)

/-- A register that changes is one that the instruction writes by rule R13's table. -/
theorem Completes.mayWriteReg (h : Completes s i t) {q : Reg} (hq : t.reg q ≠ s.reg q) : MayWriteReg q i := by
  cases h with
  | hlt | prn | cmp => exact hq rfl
  | ret => exact (s.setPc s.top).eq_of_setReg_reg_ne hq
  | push | call => exact s.eq_of_setReg_reg_ne hq
  | pop r =>
    by_cases hsp : q = Config.spIndex
    · exact .inr hsp
    · have hne : (s.setReg r s.top).reg q ≠ s.reg q := by simpa [hsp] using hq
      exact .inl (congrArg regByte (s.eq_of_setReg_reg_ne hne).symm)
  | ldi | mul => exact congrArg regByte (s.eq_of_setReg_reg_ne hq).symm

/-- No instruction reads FL, and CMP alone writes it: any other instruction carries another FL along (rule R19). -/
theorem Completes.setFl (h : Completes s i t) (hcmp : ∀ a b : Reg, i ≠ .cmp (regByte a) (regByte b)) (v : Byte) :
    t.fl = s.fl ∧ Completes (s.setFl v) i (t.setFl v) := by
  cases h with
  | hlt => exact ⟨rfl, .hlt⟩
  | ret => exact ⟨rfl, .ret⟩
  | push r => exact ⟨rfl, .push r⟩
  | pop r => exact ⟨rfl, .pop r⟩
  | prn r => exact ⟨rfl, .prn r⟩
  | call r => exact ⟨rfl, .call r⟩
  | ldi r imm => exact ⟨rfl, .ldi r imm⟩
  | mul a b => exact ⟨rfl, .mul a b⟩
  | cmp a b => exact absurd rfl (hcmp a b)

/-- CMP overwrites FL whole, so the FL before it does not matter (rule R19). -/
theorem Completes.cmp_setFl {a b : Reg} (h : Completes s (.cmp (regByte a) (regByte b)) t) (v : Byte) :
    Completes (s.setFl v) (.cmp (regByte a) (regByte b)) t := by
  have ht : (s.setFl (cmpFlags (s.reg a) (s.reg b))).advance 2 = t :=
    Host.Outcome.next.inj ((Completes.cmp a b).exec_eq.symm.trans h.exec_eq)
  exact ht ▸ Completes.cmp a b

/-- From a state that agrees on registers, `pc`, memory and run state an instruction completes in the same way. -/
theorem Completes.sameCourse {s' : State} (h : Completes s i t) (hs : SameCourse s s') :
    ∃ t', Completes s' i t' ∧ SameCourse t t' := by
  cases s
  cases s'
  obtain ⟨rfl, rfl, rfl, rfl⟩ := hs
  cases h with
  | hlt => exact ⟨_, .hlt, rfl, rfl, rfl, rfl⟩
  | ret => exact ⟨_, .ret, rfl, rfl, rfl, rfl⟩
  | push r => exact ⟨_, .push r, rfl, rfl, rfl, rfl⟩
  | pop r => exact ⟨_, .pop r, rfl, rfl, rfl, rfl⟩
  | prn r => exact ⟨_, .prn r, rfl, rfl, rfl, rfl⟩
  | call r => exact ⟨_, .call r, rfl, rfl, rfl, rfl⟩
  | ldi r imm => exact ⟨_, .ldi r imm, rfl, rfl, rfl, rfl⟩
  | mul a b => exact ⟨_, .mul a b, rfl, rfl, rfl, rfl⟩
  | cmp a b => exact ⟨_, .cmp a b, rfl, rfl, rfl, rfl⟩

end Completes

end Sys2Proof.Machine

/-! SUPPORT. The output port and the output channel, and what two states on the same course have in common. -/

namespace Sys2Proof.Machine

section OutPort
variable {ops : Opcodes} {s s' t : State}

/-- In `Running` the port shows the register that the PRN at `pc` names (rules R29, R122). -/
theorem outPort_of_prn (hr : s.runState = .running) {r : Reg} (hi : instrAt ops s = some (.prn (regByte r))) :
    outPort ops s = some (s.reg r) := by
  obtain ⟨rest, hd⟩ := instrAt_eq_some_decode.1 hi
  simp [outPort, hr, hd, regOf_some.2 (regByte_toNat r)]

/-- The port shows nothing outside `Running`. -/
theorem outPort_of_not_running (hr : s.runState ≠ .running) : outPort ops s = none := by
  unfold outPort
  split
  · next hrun => exact absurd hrun hr
  all_goals rfl

/-- The port shows nothing unless a PRN that names a register stands at `pc`. -/
theorem outPort_eq_none (h : ∀ r : Reg, instrAt ops s ≠ some (.prn (regByte r))) : outPort ops s = none := by
  by_cases hr : s.runState = .running
  · simp only [outPort, hr]
    split
    · next o rest hd =>
      have hi : instrAt ops s = some (.prn o) := instrAt_eq_some_decode.2 ⟨rest, hd⟩
      cases ho : regOf o with
      | none => rfl
      | some r => exact absurd (eq_regByte (regOf_some.1 ho) ▸ hi) (h r)
    · rfl
  · exact outPort_of_not_running hr

/-- A completed instruction appends what the port shows: x[r] for PRN, nothing for any other (rules R27, R122). -/
theorem Completes.output {i : Instr} (hr : s.runState = .running) (hi : instrAt ops s = some i) (h : Completes s i t) :
    t.output = s.output ++ (outPort ops s).toList := by
  cases h with
  | prn r => rw [outPort_of_prn hr hi]; rfl
  | hlt | ret | push | pop | call | ldi | mul | cmp =>
    rw [outPort_eq_none fun r => by simp [hi]]
    exact (List.append_nil s.output).symm

/-- A step appends to the output channel the byte the port shows, and nothing if it shows none. -/
theorem StepsTo.output (hr : s.runState = .running) (h : StepsTo ops s t) :
    t.output = s.output ++ (outPort ops s).toList := by
  cases h with
  | unknown hi =>
    rw [outPort_eq_none fun r => by simp [hi]]
    exact (List.append_nil s.output).symm
  | outOfBounds hi ho =>
    rw [outPort_eq_none fun r hprn => ?_]
    · exact (List.append_nil s.output).symm
    · obtain rfl := Option.some.inj (hi.symm.trans hprn)
      exact absurd ho.not_wellFormed (by simp [Instr.wellFormed, Instr.regOperands])
  | completes hi hc => exact hc.output hr hi

theorem SameCourse.codeByte_eq (h : SameCourse s s') : s'.codeByte = s.codeByte := by
  obtain ⟨-, hpc, hmem, -⟩ := h
  funext k
  rw [State.codeByte, State.codeByte, State.load, State.load, hpc, hmem]

theorem SameCourse.fetch_eq (h : SameCourse s s') : fetch ops s' = fetch ops s := by
  rw [fetch, fetch, h.codeByte_eq]

theorem SameCourse.instrAt_eq (h : SameCourse s s') : instrAt ops s' = instrAt ops s := by
  rw [instrAt, instrAt, h.fetch_eq]

theorem SameCourse.outPort_eq (h : SameCourse s s') : outPort ops s' = outPort ops s := by
  have hfetch : fetch ops s' = fetch ops s := h.fetch_eq
  obtain ⟨hregs, -, -, hrun⟩ := h
  have hreg : s'.reg = s.reg := funext fun r => congrArg (·[r]) hregs
  rw [outPort, outPort, hfetch, hrun, hreg]

/-- Fault entries on the same course end on the same course, whatever they record. -/
theorem SameCourse.raiseFault (h : SameCourse s s') (cause : FaultCause) (operand : Option Byte) :
    SameCourse (raiseFault cause operand s) (raiseFault cause operand s') := by
  obtain ⟨hregs, hpc, hmem, -⟩ := h
  exact ⟨hregs, hpc, hmem, rfl⟩

/-- States on the same course step to states on the same course. -/
theorem StepsTo.sameCourse (h : StepsTo ops s t) (hs : SameCourse s s') : ∃ t', StepsTo ops s' t' ∧ SameCourse t t' := by
  cases h with
  | unknown hi => exact ⟨_, .unknown (hs.instrAt_eq.trans hi), hs.raiseFault _ _⟩
  | outOfBounds hi ho => exact ⟨_, .outOfBounds (hs.instrAt_eq.trans hi) ho, hs.raiseFault _ _⟩
  | completes hi hc =>
    obtain ⟨t', hc', ht⟩ := hc.sameCourse hs
    exact ⟨t', .completes (hs.instrAt_eq.trans hi) hc', ht⟩

end OutPort

/-! The run state after a step, by what happened. -/

/-- A step ends in `Faulted` exactly if no well-formed instruction stands at `pc`. -/
theorem StepsTo.faulted_iff {ops : Opcodes} {s t : State} (hr : s.runState = .running) (h : StepsTo ops s t) :
    t.runState = .faulted ↔ ∀ i, instrAt ops s = some i → i.wellFormed = false := by
  cases h with
  | unknown hi => simp [hi]
  | outOfBounds hi ho => simp [hi, ho.not_wellFormed]
  | completes hi hc => simp [hi, hc.wellFormed, hc.not_faulted hr]

/-- A step that does not end in `Faulted` completes the instruction at `pc`. -/
theorem StepsTo.completes_of_not_faulted {ops : Opcodes} {s t : State} (h : StepsTo ops s t) (ht : t.runState ≠ .faulted) :
    ∃ i, instrAt ops s = some i ∧ Completes s i t := by
  cases h with
  | unknown | outOfBounds => exact absurd rfl ht
  | completes hi hc => exact ⟨_, hi, hc⟩

/-- A step that ends in `Faulted` is the entry of a fatal condition. -/
theorem StepsTo.eq_raiseFault {ops : Opcodes} {s t : State} (hr : s.runState = .running) (h : StepsTo ops s t)
    (ht : t.runState = .faulted) : ∃ cause operand, t = raiseFault cause operand s := by
  cases h with
  | unknown | outOfBounds => exact ⟨_, _, rfl⟩
  | completes hi hc => exact absurd ht (hc.not_faulted hr)

/-! The host's operations, the clock edge and the run, said once. -/

section Boundary
variable {ops : Opcodes} {p : InPins} {s t : State}

/-- Everything invoking `run` can do (rule R100). -/
theorem startRun_cases (s : State) : startRun s = s ∨ startRun s = s.setRunState .running := by
  unfold startRun
  split
  · exact .inr rfl
  all_goals exact .inl rfl

/-- An accepted `write_memory` (rule R182). -/
theorem writeMemory_eq_next {a : Addr} {bytes : List Byte} (h : writeMemory a bytes s = .next t) :
    s.runState = .idle ∧ t = s.storeBytes a bytes := by
  unfold writeMemory at h
  split at h
  · cases h
  · next hidle =>
    split at h
    · cases h
    · exact ⟨not_not.1 hidle, (Host.Outcome.next.inj h).symm⟩

theorem clockEdge_of_rst (h : p.rst = true) : clockEdge ops p s = construct s := by simp [clockEdge, h]

/-- An edge in `Idle`: the loader port changes memory and `run` the run state, both at one edge where both are 1. -/
theorem clockEdge_of_idle (hp : p.rst = false) (hr : s.runState = .idle) :
    clockEdge ops p s =
      { s with
        mem := if p.ldWe then s.mem.write p.ldAddr p.ldData else s.mem
        runState := if p.run then .running else .idle } := by
  cases s
  cases hr
  cases hrun : p.run <;> cases hwe : p.ldWe <;> simp [clockEdge, hp, hrun, hwe, startRun, State.store, State.setRunState]

theorem clockEdge_of_ended (hp : p.rst = false) (hr : s.runState = .halted ∨ s.runState = .faulted) :
    clockEdge ops p s = s := by
  obtain hr | hr := hr <;> simp [clockEdge, hp, hr]

/-- An edge in `Running` is one step (rule R109). -/
theorem clockEdge_of_stepsTo (hp : p.rst = false) (hr : s.runState = .running) (h : StepsTo ops s t) :
    clockEdge ops p s = t := by
  simp [clockEdge, hp, hr, h.controllerStep_eq hr]

theorem runToEnd_of_ended (he : s.ended = true) (fuel : Nat) : runToEnd ops fuel s = some s := by
  cases fuel <;> simp [runToEnd, he]

/-- Everything an answering run can do: it had ended, or it takes a step and goes on. -/
theorem runToEnd_cases {fuel : Nat} (h : runToEnd ops fuel s = some t) :
    (s.ended = true ∧ t = s) ∨
      ∃ n u, fuel = n + 1 ∧ s.ended = false ∧ controllerStep ops s = .next u ∧ runToEnd ops n u = some t := by
  cases he : s.ended with
  | true => exact .inl ⟨rfl, Option.some.inj (h.symm.trans (runToEnd_of_ended he fuel))⟩
  | false =>
    cases fuel with
    | zero => simp [runToEnd, he] at h
    | succ n =>
      simp only [runToEnd, he, Bool.false_eq_true, if_false] at h
      split at h
      · next u hu => exact .inr ⟨n, u, rfl, rfl, hu, h⟩
      · cases h
      · cases h

theorem runToEnd_of_step (he : s.ended = false) (h : controllerStep ops s = .next t) (fuel : Nat) :
    runToEnd ops (fuel + 1) s = runToEnd ops fuel t := by
  simp [runToEnd, he, h]

/-- What every step keeps, a run keeps. -/
theorem runToEnd_invariant {P : State → Prop} (hstep : ∀ s t, P s → controllerStep ops s = .next t → P t) {fuel : Nat}
    (hs : P s) (h : runToEnd ops fuel s = some t) : P t := by
  induction fuel generalizing s with
  | zero =>
    obtain ⟨-, rfl⟩ | ⟨n, u, hn, -⟩ := runToEnd_cases h
    · exact hs
    · cases hn
  | succ n ih =>
    obtain ⟨-, rfl⟩ | ⟨m, u, hm, -, hu, hrun⟩ := runToEnd_cases h
    · exact hs
    · cases hm
      exact ih (hstep s u hs hu) hrun

end Boundary

/-! The invariant: what each operation of the machine and the host does to it. -/

section Invariant
variable {ops : Opcodes} {s t : State}

/-- Outside `Faulted` the invariant is about memory and FL alone. -/
theorem inv_of_not_faulted (hm : s.mem.wf = true) (hf : FlLegal s) (hr : s.runState ≠ .faulted) : Inv ops s :=
  ⟨hm, hf, fun h => absurd h hr⟩

/-- The record of an unrecognised byte at `pc` (rule R151). -/
theorem recordLegal_unknown (hi : instrAt ops s = none) (operand : Option Byte) :
    RecordLegal ops (raiseFault .unknownInstruction operand s) :=
  fun _ => ⟨rfl, rfl, .inl ⟨rfl, instrAt_eq_none.1 hi⟩⟩

/-- The record of an operand above 7 (rule R154). -/
theorem recordLegal_outOfBounds {i : Instr} {o : Byte} (hi : instrAt ops s = some i) (ho : FirstBadOperand i o) :
    RecordLegal ops (raiseFault .outOfBounds (some o) s) := by
  have hd : (dispatch ops (s.load s.pc)).isSome = true := by
    rw [load_pc_of_instrAt hi, dispatch_opcodeOf]; rfl
  exact fun _ => ⟨rfl, rfl, .inr ⟨rfl, hd, ho.ge⟩⟩

theorem Inv.stepsTo (hr : s.runState = .running) (h : Inv ops s) (hst : StepsTo ops s t) : Inv ops t := by
  obtain ⟨hm, hf, -⟩ := h
  cases hst with
  | unknown hi => exact ⟨hm, hf, recordLegal_unknown hi none⟩
  | outOfBounds hi ho => exact ⟨hm, hf, recordLegal_outOfBounds hi ho⟩
  | completes hi hc => exact inv_of_not_faulted (hc.mem_wf hm) (hc.flLegal hf) (hc.not_faulted hr)

theorem Inv.controllerStep (h : Inv ops s) (hst : controllerStep ops s = .next t) : Inv ops t := by
  obtain ⟨hr, hst⟩ := controllerStep_eq_next.1 hst
  exact h.stepsTo hr hst

theorem inv_construct (ops : Opcodes) (s : State) : Inv ops (construct s) :=
  inv_of_not_faulted rfl (.inl rfl) RunState.noConfusion

theorem Inv.startRun (h : Inv ops s) : Inv ops (startRun s) := by
  obtain e | e := startRun_cases s
  · rwa [e]
  · obtain ⟨hm, hf, -⟩ := h
    rw [e]
    exact inv_of_not_faulted hm hf RunState.noConfusion

theorem Inv.writeMemory {a : Addr} {bytes : List Byte} (h : Inv ops s) (hw : writeMemory a bytes s = .next t) :
    Inv ops t := by
  obtain ⟨hm, hf, -⟩ := h
  obtain ⟨hidle, rfl⟩ := writeMemory_eq_next hw
  have hframe := s.storeBytes_frame a bytes
  refine inv_of_not_faulted (State.storeBytes_wf a bytes hm) ?_ ?_
  · rw [hframe]; exact hf
  · rw [hframe, hidle]; exact RunState.noConfusion

theorem Inv.clockEdge (p : InPins) (h : Inv ops s) : Inv ops (clockEdge ops p s) := by
  cases hp : p.rst with
  | true => rw [clockEdge_of_rst hp]; exact inv_construct ops s
  | false =>
    cases hr : s.runState with
    | idle =>
      obtain ⟨hm, hf, -⟩ := h
      rw [clockEdge_of_idle hp hr]
      refine inv_of_not_faulted ?_ hf ?_
      · show Memory.wf (if p.ldWe then _ else _) = true
        split
        · exact Memory.write_wf _ _ hm
        · exact hm
      · show (if p.run then RunState.running else .idle) ≠ .faulted
        split <;> decide
    | running =>
      obtain ⟨t, ht⟩ := exists_stepsTo ops s
      rw [clockEdge_of_stepsTo hp hr ht]
      exact h.stepsTo hr ht
    | halted => rwa [clockEdge_of_ended hp (.inl hr)]
    | faulted => rwa [clockEdge_of_ended hp (.inr hr)]

end Invariant

end Sys2Proof.Machine

/-! PROOFS. The statements of the family of 10_state.md. -/

namespace Sys2Proof.Machine

/-- Settles O50: a step either completes an instruction, which keeps memory canonical and FL legal and does not enter
`Faulted`, or it writes a record that describes the instruction at `pc`. -/
theorem stepKeepsInvariant : Obligations.StepKeepsInvariant :=
  ⟨fun _ _ h hst => h.controllerStep hst, fun _ _ _ h hst => h.controllerStep hst⟩

/-- A step depends on the registers, `pc`, memory and the run state alone. -/
theorem controllerStep_sameCourse {ops : Opcodes} {s s' t : State} (hs : SameCourse s s')
    (h : controllerStep ops s = .next t) :
    ∃ t' emitted, controllerStep ops s' = .next t' ∧ SameCourse t t' ∧
      t.output = s.output ++ emitted ∧ t'.output = s'.output ++ emitted := by
  obtain ⟨hr, hst⟩ := controllerStep_eq_next.1 h
  have hr' : s'.runState = .running := by
    obtain ⟨-, -, -, hrun⟩ := hs
    exact hrun.trans hr
  obtain ⟨t', hst', ht⟩ := hst.sameCourse hs
  exact ⟨t', (outPort ops s).toList, hst'.controllerStep_eq hr', ht, hst.output hr, hs.outPort_eq ▸ hst'.output hr'⟩

/-- Settles O53: both states fetch the same bytes, so both steps do the same and emit what both output ports show. -/
theorem stepDependsOnRegistersPcMemory : Obligations.StepDependsOnRegistersPcMemory :=
  fun _ _ _ _ hs h => controllerStep_sameCourse hs h

/-- Settles O6: the fetch reads as many bytes as the opcode at `pc` counts, and bytes decode exactly if they are an
encoding. -/
theorem instrAtPcIsDecoded : Obligations.InstrAtPcIsDecoded :=
  fun _ _ _ => instrAt_eq_some

/-- Settles O12, by what the step did. -/
theorem runStateAfterStep : Obligations.RunStateAfterStep := by
  intro ops s t h
  obtain ⟨hr, hst⟩ := controllerStep_eq_next.1 h
  refine ⟨hr, ?_, hst.faulted_iff hr, ?_⟩
  · cases hst with
    | unknown hi => simp [hi]
    | @outOfBounds i o hi ho =>
      have hne : i ≠ .hlt := by
        rintro rfl
        exact absurd ho.not_wellFormed (by decide)
      simp [hi, hne]
    | completes hi hc => simp [hi, hc.runState, hr]
  · cases hst with
    | unknown | outOfBounds => exact RunState.noConfusion
    | completes hi hc => rw [hc.runState, hr]; split <;> decide

/-- Settles O13: a fault keeps `pc`, and a completed instruction leaves it as its constructor of `Completes` says. -/
theorem pcAfterStep : Obligations.PcAfterStep := by
  intro ops s t h
  obtain ⟨hr, hst⟩ := controllerStep_eq_next.1 h
  constructor
  · intro ht
    obtain ⟨cause, operand, rfl⟩ := hst.eq_raiseFault hr ht
    rfl
  · intro i ht hi
    obtain ⟨j, hj, hc⟩ := hst.completes_of_not_faulted ht
    obtain rfl := Option.some.inj (hi.symm.trans hj)
    cases hc with
    | call r => exact ⟨r, rfl, rfl⟩
    | hlt | ret | push | pop | prn | ldi | mul | cmp => rfl

/-- Settles O15: a CMP that completes ignores the old FL, and everything else a step can do carries FL along. -/
theorem flWrittenByCmpReadByNone : Obligations.FlWrittenByCmpReadByNone := by
  intro ops s t v h
  obtain ⟨hr, hst⟩ := controllerStep_eq_next.1 h
  have hi' : instrAt ops (s.setFl v) = instrAt ops s := SameCourse.instrAt_eq ⟨rfl, rfl, rfl, rfl⟩
  by_cases hcmp : ∃ a b : Reg, instrAt ops s = some (.cmp (regByte a) (regByte b))
  · obtain ⟨a, b, hi⟩ := hcmp
    refine .inl ⟨a, b, hi, StepsTo.controllerStep_eq hr ?_⟩
    have ht : t.runState ≠ .faulted := by
      rw [Ne, hst.faulted_iff hr]
      simp [hi, Instr.wellFormed, Instr.regOperands]
    obtain ⟨j, hj, hc⟩ := hst.completes_of_not_faulted ht
    obtain rfl := Option.some.inj (hi.symm.trans hj)
    exact .completes (hi'.trans hi) (hc.cmp_setFl v)
  · have hcmp' : ∀ a b : Reg, instrAt ops s ≠ some (.cmp (regByte a) (regByte b)) := fun a b e => hcmp ⟨a, b, e⟩
    have hstep : t.fl = s.fl ∧ StepsTo ops (s.setFl v) (t.setFl v) := by
      cases hst with
      | unknown hi => exact ⟨rfl, .unknown (hi'.trans hi)⟩
      | outOfBounds hi ho => exact ⟨rfl, .outOfBounds (hi'.trans hi) ho⟩
      | completes hi hc =>
        obtain ⟨hfl, hc'⟩ := hc.setFl (fun a b e => hcmp' a b (e ▸ hi)) v
        exact ⟨hfl, .completes (hi'.trans hi) hc'⟩
    obtain ⟨hfl, hst'⟩ := hstep
    exact .inr ⟨hcmp', hfl, hst'.controllerStep_eq hr⟩

/-- Settles O16: the channel grows by what the output port shows, which is PRN's register or nothing. -/
theorem outputGrowsOnlyByPrn : Obligations.OutputGrowsOnlyByPrn := by
  intro ops s t h
  obtain ⟨hr, hst⟩ := controllerStep_eq_next.1 h
  constructor
  · intro r hi
    rw [hst.output hr, outPort_of_prn hr hi, Option.toList_some]
  · intro hi
    rw [hst.output hr, outPort_eq_none hi, Option.toList_none, List.append_nil]

/-- Settles O18: a fault entry changes no register, and a completed instruction only those of rule R13's table. -/
theorem registersWrittenPerInstruction : Obligations.RegistersWrittenPerInstruction := by
  intro ops s t h q hq
  obtain ⟨hr, hst⟩ := controllerStep_eq_next.1 h
  cases hst with
  | unknown | outOfBounds => exact absurd rfl hq
  | completes hi hc => exact ⟨hc.not_faulted hr, _, hi, hc.wellFormed, hc.mayWriteReg hq⟩

/-- Settles O47, by the run state: only an edge in `Running` takes a step, and it emits what the port shows. -/
theorem outPortShowsWhatPrnEmits : Obligations.OutPortShowsWhatPrnEmits := by
  intro ops p s hp
  show (clockEdge ops p s).output = s.output ++ (outPort ops s).toList
  cases hr : s.runState with
  | running =>
    obtain ⟨t, ht⟩ := exists_stepsTo ops s
    rw [clockEdge_of_stepsTo hp hr ht, ht.output hr]
  | idle => simp [clockEdge_of_idle hp hr, outPort_of_not_running, hr]
  | halted => simp [clockEdge_of_ended hp (.inl hr), outPort_of_not_running, hr]
  | faulted => simp [clockEdge_of_ended hp (.inr hr), outPort_of_not_running, hr]

/-- Settles O51, operation by operation; a run keeps what every step keeps. -/
theorem boundaryKeepsInvariant : Obligations.BoundaryKeepsInvariant := by
  intro ops s h
  refine ⟨inv_construct ops s, h.startRun, fun p => h.clockEdge p, fun a bytes t hw => h.writeMemory hw, ?_⟩
  intro fuel t hrun
  exact runToEnd_invariant (fun _ _ hu hst => hu.controllerStep hst) h.startRun hrun

/-- States on the same course have both ended or neither. -/
theorem SameCourse.ended_eq {s s' : State} (h : SameCourse s s') : s'.ended = s.ended := by
  obtain ⟨-, -, -, hrun⟩ := h
  rw [State.ended, State.ended, hrun]

/-- Settles O52, by induction on the fuel: each step of one run is matched by a step of the other (O53). -/
theorem runDependsOnRegistersPcMemory : Obligations.RunDependsOnRegistersPcMemory := by
  intro ops fuel
  induction fuel with
  | zero =>
    intro s s' t hs h
    obtain ⟨he, rfl⟩ | ⟨n, u, hn, -⟩ := runToEnd_cases h
    · exact ⟨s', [], runToEnd_of_ended (hs.ended_eq.trans he) 0, hs, by simp, by simp⟩
    · cases hn
  | succ n ih =>
    intro s s' t hs h
    obtain ⟨he, rfl⟩ | ⟨m, u, hm, he, hu, hrun⟩ := runToEnd_cases h
    · exact ⟨s', [], runToEnd_of_ended (hs.ended_eq.trans he) _, hs, by simp, by simp⟩
    · obtain rfl := Nat.succ.inj hm
      obtain ⟨u', emitted, hu', hsu, hout, hout'⟩ := controllerStep_sameCourse hs hu
      obtain ⟨t', emitted', ht', hst, houtt, houtt'⟩ := ih u u' t hsu hrun
      refine ⟨t', emitted ++ emitted', ?_, hst, ?_, ?_⟩
      · rw [runToEnd_of_step (hs.ended_eq.trans he) hu', ht']
      · rw [houtt, hout, List.append_assoc]
      · rw [houtt', hout', List.append_assoc]

/-- Settles O54: the pins are the fields, and an edge at which a step raises a fault is that fault's entry. -/
theorem outPinsShowRunStateAndRecord : Obligations.OutPinsShowRunStateAndRecord := by
  refine ⟨?_, ?_, ?_⟩
  · intro ops s
    simp [outPins]
  · intro ops p s hp hr hi
    rw [clockEdge_of_stepsTo hp hr (.unknown hi)]
    exact ⟨rfl, rfl, rfl, rfl, rfl⟩
  · intro ops p s i o hp hr hpc ho
    have hi : instrAt ops s = some i := instrAt_eq_some.2 hpc
    rw [clockEdge_of_stepsTo hp hr (.outOfBounds hi ho)]
    exact ⟨rfl, rfl, rfl, load_pc_of_instrAt hi, rfl, rfl⟩

/-- Settles O36: each clause runs one instruction at the end of memory. -/
theorem addressesWrap : Obligations.AddressesWrap := by
  refine ⟨?_, ?_, ?_, ?_⟩
  · intro r s hr hm hsp
    refine ⟨_, (Completes.push r).exec_eq, ?_, ?_⟩
    · simp [hsp]
    · simp [pushByte_load hm, hsp, hr]
  · intro r s hr hsp
    refine ⟨_, (Completes.pop r).exec_eq, ?_, ?_⟩
    · simp [hr, hsp]
    · simp [State.top, hsp, hr]
  · intro r s hm hpc
    refine ⟨_, (Completes.call r).exec_eq, ?_⟩
    simp [pushByte_load hm, hpc]
  · intro s hpc
    simp [State.codeByte, hpc]

/-- Settles O46, by the pins and the run state. -/
theorem clockEdgeFollowsPins : Obligations.ClockEdgeFollowsPins := by
  intro ops p s
  refine ⟨?_, ?_, clockEdge_of_ended, ?_⟩
  · intro hp
    rw [clockEdge_of_rst hp]
    exact ⟨⟨rfl, rfl, rfl, rfl⟩, rfl, rfl⟩
  · intro hp hr
    obtain ⟨t, ht⟩ := exists_stepsTo ops s
    rw [clockEdge_of_stepsTo hp hr ht, ht.controllerStep_eq hr]
  · intro hp hr
    rw [clockEdge_of_idle hp hr]
    exact ⟨rfl, rfl, fun _ _ => rfl, rfl, rfl, ⟨rfl, rfl, rfl, rfl, rfl⟩, rfl⟩

/-- Settles O49: reset memory is empty, FL is 0x00, and the run state is `Idle`. -/
theorem invariantAtReset : Obligations.InvariantAtReset :=
  fun _ => inv_of_not_faulted rfl (.inl rfl) RunState.noConfusion

end Sys2Proof.Machine

/-! SUPPORT. Memory: what a memory in canonical form reads as determines it, and what sequences of writes read as. -/

namespace Sys2Proof.Machine

/-- The canonical form of a memory with a first cell. -/
theorem Memory.wfFrom_cons {lo k : Nat} {v : Byte} {m : Memory} :
    Memory.wfFrom lo ((k, v) :: m) = true ↔
      lo ≤ k ∧ k < Config.memSize ∧ v ≠ Config.unlistedByte ∧ Memory.wfFrom (k + 1) m = true := by
  simp [Memory.wfFrom, and_assoc]

/-- A memory that reads as one with a first cell at `k` does not start above `k`: cell `k` would read as unlisted. -/
theorem Memory.le_of_read_eq_cons {lo lo' k : Nat} {v : Byte} {m m' : Memory}
    (h : Memory.wfFrom lo ((k, v) :: m) = true) (h' : Memory.wfFrom lo' m' = true)
    (he : ∀ a, Memory.read ((k, v) :: m) a = Memory.read m' a) : lo' ≤ k := by
  obtain ⟨-, hk, hv, -⟩ := Memory.wfFrom_cons.1 h
  by_contra hlt
  have hka : k = (BitVec.ofNat 8 k).toNat := (Nat.mod_eq_of_lt hk).symm
  have hread : v = Memory.read m' (BitVec.ofNat 8 k) := by rw [← he, Memory.read, if_pos hka]
  exact hv (hread.trans (Memory.read_of_wfFrom h' (by omega)))

/-- What the cells after the first one read as, by what the whole memory reads as. -/
theorem Memory.read_tail {k : Nat} {m : Memory} (h : Memory.wfFrom (k + 1) m = true) (v : Byte) (a : Addr) :
    Memory.read m a = if k = a.toNat then Config.unlistedByte else Memory.read ((k, v) :: m) a := by
  split
  · exact Memory.read_of_wfFrom h (by omega)
  · next hk => rw [Memory.read, if_neg hk]

/-- Memories in canonical form that read the same are the same, from any lower bounds. -/
theorem Memory.eq_of_read_eq {lo lo' : Nat} {m m' : Memory} (h : Memory.wfFrom lo m = true)
    (h' : Memory.wfFrom lo' m' = true) (he : ∀ a, Memory.read m a = Memory.read m' a) : m = m' := by
  induction m generalizing lo lo' m' with
  | nil =>
    cases m' with
    | nil => rfl
    | cons c' m' =>
      obtain ⟨-, hk', -, -⟩ := Memory.wfFrom_cons.1 h'
      have hle : Config.memSize ≤ c'.1 := Memory.le_of_read_eq_cons h' rfl fun a => (he a).symm
      omega
  | cons c m ih =>
    obtain ⟨k, v⟩ := c
    obtain ⟨-, hk, hv, hm⟩ := Memory.wfFrom_cons.1 h
    cases m' with
    | nil =>
      have hle : Config.memSize ≤ k := Memory.le_of_read_eq_cons h rfl he
      omega
    | cons c' m' =>
      obtain ⟨k', v'⟩ := c'
      obtain ⟨-, hk', hv', hm'⟩ := Memory.wfFrom_cons.1 h'
      have hle : k' ≤ k := Memory.le_of_read_eq_cons h (Memory.wfFrom_cons.2 ⟨le_rfl, hk', hv', hm'⟩) he
      have hge : k ≤ k' :=
        Memory.le_of_read_eq_cons h' (Memory.wfFrom_cons.2 ⟨le_rfl, hk, hv, hm⟩) fun a => (he a).symm
      obtain rfl := Nat.le_antisymm hge hle
      have hvv : v = v' := by simpa [Memory.read, Nat.mod_eq_of_lt hk] using he (BitVec.ofNat 8 k)
      have htail : m = m' := ih hm hm' fun a => by rw [Memory.read_tail hm v, he a, ← Memory.read_tail hm' v']
      rw [hvv, htail]

/-- Any sequence of writes keeps the canonical form. -/
theorem Memory.foldl_write_wf {m : Memory} (ws : List (Addr × Byte)) (h : m.wf = true) :
    (ws.foldl (fun m w => m.write w.1 w.2) m).wf = true := by
  induction ws generalizing m with
  | nil => exact h
  | cons w ws ih => exact ih (Memory.write_wf w.1 w.2 h)

/-- After any sequence of writes a cell reads as its latest write, or as before if there was none (rule R42). -/
theorem Memory.read_foldl_write {m : Memory} (ws : List (Addr × Byte)) (a : Addr) (h : m.wf = true) :
    (ws.foldl (fun m w => m.write w.1 w.2) m).read a =
      ((ws.reverse.find? fun w => decide (w.1 = a)).map Prod.snd).getD (m.read a) := by
  induction ws using List.reverseRecOn with
  | nil => rfl
  | append_singleton ws w ih =>
    rw [List.foldl_append, List.foldl_cons, List.foldl_nil,
      Memory.read_write_from w.2 a (Memory.foldl_write_wf ws h), List.reverse_append, List.reverse_singleton,
      List.singleton_append]
    by_cases hw : w.1 = a
    · simp [hw]
    · simp [hw, Ne.symm hw, ih]

/-- The bytes of a table word begin with the encoding of the instruction read from it. -/
theorem tableBytes_of_decodeTableWord {nbits w : Nat} {i : Instr} (h : decodeTableWord nbits w = some i) :
    ∃ rest, tableBytes nbits w = encode defaultOpcodes i ++ rest := by
  unfold decodeTableWord at h
  split at h
  · cases h
  · next j rest hd =>
    obtain rfl := Option.some.inj h
    exact ⟨rest, decode_eq_ok.1 hd⟩

section Placed
variable {ops : Opcodes} {s t : State} {i : Instr}

/-- What memory reads as after bytes are stored from `a` on: the byte at the distance from `a`, modulo 256 (rule R17). -/
theorem State.storeBytes_load (hm : s.mem.wf = true) (a : Addr) {vs : List Byte} (hlen : vs.length ≤ 256)
    (x : Addr) : (s.storeBytes a vs).load x = vs.getD (x - a).toNat (s.load x) := by
  induction vs generalizing s a with
  | nil => rfl
  | cons v vs ih =>
    rw [List.length_cons] at hlen
    rw [State.storeBytes, ih (s := s.store a v) (Memory.write_wf a v hm) (a + 1) (by omega), State.store_load hm]
    by_cases hx : x = a
    · have hlast : (x - (a + 1)).toNat = 255 := by bv_omega
      rw [hlast, List.getD_eq_default _ _ (by omega)]
      simp [hx]
    · have hsucc : (x - a).toNat = (x - (a + 1)).toNat + 1 := by bv_omega
      rw [hsucc, List.getD_cons_succ, if_neg hx]

/-- Bytes stored from `pc` on that begin with the encoding of `i` put `i` at `pc`. -/
theorem instrAtPc_storeBytes (hm : s.mem.wf = true) {rest : List Byte}
    (hlen : (encode ops i ++ rest).length ≤ 256) :
    InstrAtPc ops i (s.storeBytes s.pc (encode ops i ++ rest)) := by
  refine List.ext_getElem (by simp) fun k hk hk' => ?_
  have hk256 : k < 256 := by rw [List.length_append] at hlen; omega
  have hdist : (s.pc + BitVec.ofNat 8 k - s.pc).toNat = k := by bv_omega
  have hpc : (s.storeBytes s.pc (encode ops i ++ rest)).pc = s.pc := by rw [State.storeBytes_frame]
  rw [List.getElem_map, List.getElem_range, State.codeByte, hpc, State.storeBytes_load hm _ hlen, hdist,
    List.getD_append _ _ _ _ hk', List.getD_eq_getElem _ _ hk']

/-- In `Running` a step is `exec` of the instruction whose bytes stand at `pc` (rule R101). -/
theorem controllerStep_of_instrAtPc (hr : s.runState = .running) (h : InstrAtPc ops i s) :
    controllerStep ops s = exec i s := by
  rw [controllerStep_of_running ops hr, instrAt_eq_some.2 h]

/-- The two bytes of a PUSH at `pc` (rules R43, R62). -/
theorem instrAtPc_push {o : Byte} :
    InstrAtPc ops (.push o) s ↔ s.load s.pc = ops.push ∧ s.load (s.pc + 1) = o := by
  simp [InstrAtPc, encode, Instr.operands, Instr.handler, opcodeOf, List.range_succ, State.codeByte]

/-- A cell that a push changes is the one at the decremented stack pointer (rule R133). -/
theorem eq_of_pushByte_load_ne (hm : s.mem.wf = true) (v : State → Byte) {a : Addr}
    (h : (s.pushByte v).load a ≠ s.load a) : a = s.sp - 1 :=
  by_contra fun ha => h (by rw [pushByte_load hm, if_neg ha])

/-- Only PUSH and CALL change memory, and only the cell at the new stack pointer (rules R41, R46). -/
theorem Completes.load_ne (h : Completes s i t) (hm : s.mem.wf = true) {a : Addr} (ha : t.load a ≠ s.load a) :
    a = s.sp - 1 ∧ t.sp = s.sp - 1 ∧ ∃ r : Reg, i = .push (regByte r) ∨ i = .call (regByte r) := by
  cases h with
  | push r => exact ⟨eq_of_pushByte_load_ne hm (fun t => t.reg r) ha, pushByte_sp s fun t => t.reg r, r, .inl rfl⟩
  | call r => exact ⟨eq_of_pushByte_load_ne hm (fun t => t.pc + 2) ha, pushByte_sp s fun t => t.pc + 2, r, .inr rfl⟩
  | hlt | ret | pop | prn | ldi | mul | cmp => exact absurd rfl ha

end Placed

end Sys2Proof.Machine

/-! PROOFS. The statements of the family of 20_memory.md. -/

namespace Sys2Proof.Machine

/-- Settles O17: a fault entry changes no cell, and a completed instruction only the one it pushes. -/
theorem memoryChangedOnlyByPushCall : Obligations.MemoryChangedOnlyByPushCall := by
  intro ops s t hm h a ha
  obtain ⟨-, hst⟩ := controllerStep_eq_next.1 h
  cases hst with
  | unknown | outOfBounds => exact absurd rfl ha
  | completes hi hc =>
    obtain ⟨rfl, hsp, r, hr⟩ := hc.load_ne hm ha
    exact ⟨by simp, hsp, r, by simpa [hi] using hr⟩

/-- Settles O34, by induction on the writes from the last one on; reset memory reads 0x00 everywhere. -/
theorem memoryReadsLatestWrite : Obligations.MemoryReadsLatestWrite :=
  fun ws a => Memory.read_foldl_write (m := State.reset.mem) ws a rfl

/-- Settles O35, by induction on the cells: the first cells stand at the same address and hold the same byte. -/
theorem memoryIsCanonical : Obligations.MemoryIsCanonical :=
  fun _ _ h h' he => Memory.eq_of_read_eq h h' he

/-- Settles O40: the push stores x[r] over the operand byte and leaves the opcode before it. -/
theorem pushOverItsOwnOperand : Obligations.PushOverItsOwnOperand := by
  intro ops r s hr hm hrun hpc hsp
  have hload (x : Addr) : (s.pushByte fun t => t.reg r).load x = if x = s.pc + 1 then s.reg r else s.load x := by
    have htop : s.sp - 1 = s.pc + 1 := by rw [hsp]; bv_omega
    rw [pushByte_load hm, htop, State.decSp_eq_setReg, State.setReg_reg_other _ hr]
  obtain ⟨hop, -⟩ := instrAtPc_push.1 hpc
  have hne : s.pc ≠ s.pc + 1 := by bv_omega
  refine ⟨_, (controllerStep_of_instrAtPc hrun hpc).trans (Completes.push r).exec_eq, rfl, ?_, instrAtPc_push.2 ⟨?_, ?_⟩⟩
  · exact (hload _).trans (if_pos rfl)
  · exact ((hload _).trans (if_neg hne)).trans hop
  · exact (hload _).trans (if_pos rfl)

/-- Settles O48: the bytes stored from `pc` on begin with the encoding of the instruction read from the word. -/
theorem placedWordRuns : Obligations.PlacedWordRuns := by
  intro s nbits w i hm h
  obtain ⟨rest, hbytes⟩ := tableBytes_of_decodeTableWord h
  have hlen : (encode defaultOpcodes i ++ rest).length ≤ 256 := by rw [← hbytes]; simp [tableBytes]
  have hpc : InstrAtPc defaultOpcodes i (s.storeBytes s.pc (tableBytes nbits w)) := hbytes ▸ instrAtPc_storeBytes hm hlen
  exact controllerStep_of_instrAtPc rfl hpc

end Sys2Proof.Machine

/-! SUPPORT. Which bytes the decoder recognises, and how many operand bytes an instruction has. -/

namespace Sys2Proof

/-- A byte has no entry in the dispatch table exactly if it is none of the nine opcodes (rule R69). -/
theorem dispatch_eq_none {ops : Opcodes} {op : Byte} : dispatch ops op = none ↔ ∀ h : Handler, op ≠ opcodeOf ops h := by
  simp only [Option.eq_none_iff_forall_ne_some, ne_eq, dispatch_eq_some]

/-- Only the lookup answers `unknownInstruction`; a recognised opcode with too few bytes after it is `truncated`. -/
theorem decode_eq_unknownInstruction {ops : Opcodes} {op : Byte} {bytes : List Byte} :
    decode ops (op :: bytes) = .error (.unknownInstruction op) ↔ dispatch ops op = none := by
  cases hd : dispatch ops op with
  | none => simp [decode, hd]
  | some h =>
    cases hr : readOperands h bytes with
    | none => simp [decode, hd, hr]
    | some r => simp [decode, hd, hr]

/-- The longest format has two operand bytes (rule R62). -/
theorem Instr.operands_length_le_two (i : Instr) : i.operands.length ≤ 2 := by
  cases i <;> simp [Instr.operands]

/-- The operand count of an instruction's opcode is the number of its operand bytes (rules R60, R67). -/
theorem Instr.operands_length (ops : Opcodes) (i : Instr) :
    i.operands.length = operandField (opcodeOf ops i.handler) := by
  have hlen : i.operands.length + 1 = 1 + operandField (opcodeOf ops i.handler) := encode_length ops i
  omega

end Sys2Proof

/-! PROOFS. The statements of the family of 30_encoding.md. -/

namespace Sys2Proof

/-- Settles O3: decoding answers an instruction exactly on its encodings (`decode_eq_ok`), read from right to left. -/
theorem decodeOfEncode : Obligations.DecodeOfEncode :=
  fun _ _ _ => decode_eq_ok.2 rfl

/-- Settles O4: decoding answers an instruction exactly on its encodings (`decode_eq_ok`), read from left to right. -/
theorem decodedBytesAreTheEncoding : Obligations.DecodedBytesAreTheEncoding :=
  fun _ _ _ _ => decode_eq_ok.1

/-- Settles O5: the lookup alone decides whether a byte is recognised, and bytes that decode are an encoding, which has
its opcode first and as many operand bytes as the opcode counts. -/
theorem onlyNineOpcodesRecognised : Obligations.OnlyNineOpcodesRecognised := by
  intro ops op bytes
  refine ⟨decode_eq_unknownInstruction.trans dispatch_eq_none, fun i rest hd => ?_⟩
  obtain ⟨rfl, rfl⟩ : op = opcodeOf ops i.handler ∧ bytes = i.operands ++ rest := List.cons.inj (decode_eq_ok.1 hd)
  have hcount := i.operands_length ops
  refine ⟨rfl, hcount, hcount ▸ i.operands_length_le_two, ?_⟩
  rw [List.length_cons, List.length_append, hcount]
  omega

/-- Settles O1: the six bytes are the encodings of the three instructions, whatever the open opcodes are. -/
theorem sourceOpcodesDecode : Obligations.SourceOpcodesDecode :=
  ⟨rfl, rfl, rfl, rfl, rfl, rfl, fun _ => ⟨decode_eq_ok.2 rfl, decode_eq_ok.2 rfl, decode_eq_ok.2 rfl⟩⟩

/-- Settles O2: each word is the encoding of its instruction under the default opcodes. -/
theorem defaultWordsDecode : Obligations.DefaultWordsDecode := by
  refine ⟨?_, ?_, ?_, ?_, ?_, ?_, ?_, ?_, ?_⟩ <;> exact decode_eq_ok.2 rfl

end Sys2Proof

/-! SUPPORT. The ALU: CMP's flag value by the order of the operands, DIV by its divisor, the selector by its name; and the
shapes that a completed ALU function and a fault entry share. -/

namespace Sys2Proof.Machine

section Flags
variable {x y : Byte}

@[simp] theorem cmpFlags_self (x : Byte) : cmpFlags x x = 0x01 := if_pos rfl

theorem cmpFlags_of_gt (h : y.toNat < x.toNat) : cmpFlags x y = 0x02 := by
  have hne : x ≠ y := by bv_omega
  exact (if_neg hne).trans (if_pos h)

theorem cmpFlags_of_lt (h : x.toNat < y.toNat) : cmpFlags x y = 0x04 := by
  have hne : x ≠ y := by bv_omega
  exact (if_neg hne).trans (if_neg (Nat.lt_asymm h))

/-- Each named bit of CMP's flag value is one of the three relations (rules R18, R85). -/
theorem cmpFlags_bits (x y : Byte) :
    ((cmpFlags x y).getLsbD 0 = true ↔ x = y) ∧ ((cmpFlags x y).getLsbD 1 = true ↔ y.toNat < x.toNat) ∧
      ((cmpFlags x y).getLsbD 2 = true ↔ x.toNat < y.toNat) := by
  obtain hlt | heq | hgt := lt_trichotomy x.toNat y.toNat
  · have hne : x ≠ y := by bv_omega
    simp [cmpFlags_of_lt hlt, hlt, hne, hlt.le]
  · obtain rfl := BitVec.eq_of_toNat_eq heq
    simp
  · have hne : x ≠ y := by bv_omega
    simp [cmpFlags_of_gt hgt, hgt, hne, hgt.le]

end Flags

section Alu
variable {a b : Reg} {s : State} {name : String}

theorem alu_add (a b : Reg) (s : State) : alu .add a b s = .ok (s.setReg a (s.reg a + s.reg b)) := rfl
theorem alu_sub (a b : Reg) (s : State) : alu .sub a b s = .ok (s.setReg a (s.reg a - s.reg b)) := rfl
theorem alu_mul (a b : Reg) (s : State) : alu .mul a b s = .ok (s.setReg a (s.reg a * s.reg b)) := rfl
theorem alu_cmp (a b : Reg) (s : State) : alu .cmp a b s = .ok (s.setFl (cmpFlags (s.reg a) (s.reg b))) := rfl

/-- DIV by a divisor other than 0 (rule R84). -/
theorem alu_div_of_ne_zero (h : s.reg b ≠ 0) : alu .div a b s = .ok (s.setReg a (s.reg a / s.reg b)) := if_neg h

/-- DIV by 0 (rule R153). -/
theorem alu_div_of_eq_zero (h : s.reg b = 0) : alu .div a b s = .error .divisionByZero := if_pos h

/-- The selector knows exactly the five names (rules R80, R86). -/
theorem aluOpNamed_eq_none : aluOpNamed name = none ↔ name ∉ ["ADD", "SUB", "MUL", "DIV", "CMP"] := by
  unfold aluOpNamed
  split_ifs <;> simp [*]

theorem aluNamed_of_some {op : AluOp} (h : aluOpNamed name = some op) : aluNamed name a b s = alu op a b s := by
  rw [aluNamed, h]

theorem aluNamed_of_none (h : aluOpNamed name = none) : aluNamed name a b s = .error .unsupportedOperation := by
  rw [aluNamed, h]

/-- A register write changes one register. -/
theorem State.setReg_sameRegsBut (s : State) (r : Reg) (v : Byte) : SameRegsBut [r] s (s.setReg r v) :=
  fun _ hq => s.setReg_reg_other (List.ne_of_not_mem_cons hq) v

/-- An ALU function that writes one register: its value there, and nothing else changed. -/
theorem exists_ok_setReg {result : Except FaultCause State} {v : Byte} (h : result = .ok (s.setReg a v)) :
    ∃ t, result = .ok t ∧ t.reg a = v ∧ SameRegsBut [a] s t ∧ t = { s with regs := t.regs } :=
  ⟨_, h, s.setReg_reg_same a v, s.setReg_sameRegsBut a v, rfl⟩

/-- A fatal condition that an ALU function raises is entered, and nothing else happens (rules R156, R157). -/
theorem exists_next_of_alu_error {result : Except FaultCause State} {cause : FaultCause} (h : result = .error cause)
    (n : Nat) : ∃ t, afterAlu n s result = .next t ∧ FaultedFrom s cause (s.load s.pc) none t :=
  ⟨_, congrArg (afterAlu n s) h, raiseFault_spec cause none s⟩

end Alu

/-- An instruction with an operand that names no register answers with the fault entry for the first one. -/
theorem FirstBadOperand.exists_next {i : Instr} {o : Byte} (h : FirstBadOperand i o) (s : State) :
    ∃ t, exec i s = .next t ∧ FaultedFrom s .outOfBounds (s.load s.pc) (some o) t :=
  ⟨_, exec_of_firstBadOperand h s, raiseFault_spec .outOfBounds (some o) s⟩

/-- The first of two register operands is checked first, whatever the second one is (rule R158). -/
theorem find_badOperand_first {o : Byte} (ho : 8 ≤ o.toNat) (b : Byte) :
    [o, b].find? (fun x => !namesReg x) = some o :=
  List.find?_cons_of_pos (by simp [namesReg_eq_false.2 ho])

/-- The second of two register operands is at fault where the first one names a register. -/
theorem find_badOperand_second (a : Reg) {o : Byte} (ho : 8 ≤ o.toNat) :
    [regByte a, o].find? (fun x => !namesReg x) = some o := by
  simp [namesReg_eq_false.2 ho]

end Sys2Proof.Machine

/-! PROOFS. The statements of the family of 40_alu.md. -/

namespace Sys2Proof.Machine

/-- Settles O31: each flag bit of CMP's value is one relation of the two values, and FL takes that value whole. -/
theorem aluCompareSetsOneFlag : Obligations.AluCompareSetsOneFlag := by
  intro a b s
  obtain ⟨hE, hG, hL⟩ := cmpFlags_bits (s.reg a) (s.reg b)
  exact ⟨_, alu_cmp a b s, rfl, hE, hG, hL, cmpFlags_legal (s.reg a) (s.reg b)⟩

/-- Settles O27: MUL completes with the product of bytes, or faults on its first operand that names no register. -/
theorem mulMultiplies : Obligations.MulMultiplies := by
  refine ⟨fun _ _ _ => rfl, rfl, ?_, ?_, ?_⟩
  · intro a b s
    refine ⟨_, (Completes.mul a b).exec_eq, ?_, s.setReg_sameRegsBut a _, rfl, rfl, rfl, ⟨rfl, rfl, rfl, rfl, rfl⟩,
      fun _ _ => rfl, rfl⟩
    rw [State.advance_reg, State.setReg_reg_same, BitVec.toNat_mul]
  · intro o b s ho
    exact FirstBadOperand.exists_next (i := .mul o b) (find_badOperand_first ho b) s
  · intro a o s ho
    exact FirstBadOperand.exists_next (i := .mul (regByte a) o) (find_badOperand_second a ho) s

/-- Settles O28: CMP completes with its flag value in FL, or faults on its first operand that names no register. -/
theorem cmpCompares : Obligations.CmpCompares := by
  refine ⟨fun _ _ _ => rfl, rfl, ?_, ?_, ?_⟩
  · intro a b s
    refine ⟨_, (Completes.cmp a b).exec_eq, ?_, cmpFlags_of_gt, cmpFlags_of_lt, fun _ _ => rfl, rfl, rfl,
      ⟨rfl, rfl, rfl, rfl, rfl⟩, fun _ _ => rfl, rfl⟩
    intro h
    simp [h]
  · intro o b s ho
    exact FirstBadOperand.exists_next (i := .cmp o b) (find_badOperand_first ho b) s
  · intro a o s ho
    exact FirstBadOperand.exists_next (i := .cmp (regByte a) o) (find_badOperand_second a ho) s

/-- Settles O29: the three functions write the byte's sum, difference and product, which are exact modulo 256. -/
theorem aluArithmeticWraps : Obligations.AluArithmeticWraps := by
  intro a b s
  refine ⟨?_, ?_, ?_⟩
  · obtain ⟨t, hok, hv, hframe⟩ := exists_ok_setReg (alu_add a b s)
    exact ⟨t, hok, by rw [hv, BitVec.toNat_add], hframe⟩
  · obtain ⟨t, hok, hv, hframe⟩ := exists_ok_setReg (alu_sub a b s)
    exact ⟨t, hok, by rw [hv, BitVec.toNat_sub]; omega, hframe⟩
  · obtain ⟨t, hok, hv, hframe⟩ := exists_ok_setReg (alu_mul a b s)
    exact ⟨t, hok, by rw [hv, BitVec.toNat_mul], hframe⟩

/-- Settles O30, by the divisor. -/
theorem aluDivides : Obligations.AluDivides := by
  intro a b s
  constructor
  · intro hb
    obtain ⟨t, hok, hv, hframe⟩ := exists_ok_setReg (alu_div_of_ne_zero (a := a) hb)
    exact ⟨t, hok, by rw [hv, BitVec.toNat_udiv], hframe⟩
  · intro hb
    exact exists_next_of_alu_error (alu_div_of_eq_zero hb) 2

/-- Settles O32: both operands are the old x[r], so each result is an identity of bytes. -/
theorem aluSameRegisterTwice : Obligations.AluSameRegisterTwice := by
  intro r s
  refine ⟨?_, ?_, alu_mul r r s, ?_, alu_div_of_eq_zero, ?_⟩
  · rw [alu_add, two_mul]
  · simp [alu_sub]
  · intro h
    have hone : s.reg r / s.reg r = 1 := by simpa [BitVec.udiv_self] using h
    rw [alu_div_of_ne_zero h, hone]
  · rw [alu_cmp, cmpFlags_self]

/-- Settles O33: the selector finds exactly the five names, and without an operation the fault is entered. -/
theorem aluOtherNameUnsupported : Obligations.AluOtherNameUnsupported := by
  intro a b s
  refine ⟨aluNamed_of_some rfl, aluNamed_of_some rfl, aluNamed_of_some rfl, aluNamed_of_some rfl, aluNamed_of_some rfl, ?_⟩
  intro name hname
  exact exists_next_of_alu_error (aluNamed_of_none (aluOpNamed_eq_none.2 hname)) 2

end Sys2Proof.Machine

/-! SUPPORT. Fetch and execute: how a completed instruction advances, where no step is, and how a run goes on and ends. -/

namespace Sys2Proof.Machine

section Advance
variable {ops : Opcodes} {s t : State} {i : Instr}

/-- The generic advance goes past the opcode and its operand bytes; CALL and RET have none (rule R104). -/
theorem Completes.pc_of_advance (h : Completes s i t) (hcall : i.handler ≠ .call) (hret : i.handler ≠ .ret) :
    t.pc = s.pc + BitVec.ofNat 8 (1 + i.operands.length) := by
  cases h with
  | call => exact absurd rfl hcall
  | ret => exact absurd rfl hret
  | hlt | push | pop | prn | ldi | mul | cmp => rfl

/-- CALL reads its target after the decrement of R7 (rules R141, R143). -/
theorem Completes.pc_of_call {r : Reg} (h : Completes s (.call (regByte r)) t) : t.pc = s.decSp.reg r := by
  obtain rfl := Host.Outcome.next.inj ((Completes.call r).exec_eq.symm.trans h.exec_eq)
  rfl

/-- RET goes to the address at the top of the stack (rule R142). -/
theorem Completes.pc_of_ret (h : Completes s .ret t) : t.pc = s.load s.sp := by
  cases h
  rfl

/-- A step that does not end in `Faulted` completes the instruction that is known to stand at `pc`. -/
theorem StepsTo.completes_instrAt (h : StepsTo ops s t) (hi : instrAt ops s = some i) (ht : t.runState ≠ .faulted) :
    Completes s i t := by
  obtain ⟨j, hj, hc⟩ := h.completes_of_not_faulted ht
  obtain rfl := Option.some.inj (hi.symm.trans hj)
  exact hc

/-- A step at a well-formed instruction completes it. -/
theorem StepsTo.completes_wellFormed (hr : s.runState = .running) (h : StepsTo ops s t) (hi : instrAt ops s = some i)
    (hwf : i.wellFormed = true) : Completes s i t := by
  refine h.completes_instrAt hi fun ht => ?_
  have hbad : i.wellFormed = false := (h.faulted_iff hr).1 ht i hi
  exact Bool.false_ne_true (hbad.symm.trans hwf)

end Advance

section Run
variable {ops : Opcodes} {s t : State}

theorem controllerStep_of_idle (ops : Opcodes) (h : s.runState = .idle) : controllerStep ops s = .fault .stuckIdle := by
  rw [controllerStep, h]

theorem controllerStep_of_halted (ops : Opcodes) (h : s.runState = .halted) :
    controllerStep ops s = .fault .stuckHalted := by
  rw [controllerStep, h]

theorem controllerStep_of_faulted (ops : Opcodes) (h : s.runState = .faulted) :
    controllerStep ops s = .fault .stuckFaulted := by
  rw [controllerStep, h]

theorem startRun_of_idle (h : s.runState = .idle) : startRun s = { s with runState := .running } := by
  rw [startRun, h]
  rfl

theorem startRun_of_ne_idle (h : s.runState ≠ .idle) : startRun s = s := by
  unfold startRun
  split
  · next hidle => exact absurd hidle h
  all_goals rfl

/-- A run ends in `Halted` or `Faulted` (rule R112). -/
theorem State.ended_iff : s.ended = true ↔ s.runState = .halted ∨ s.runState = .faulted := by
  simp [State.ended]

/-- `Idle` and `Running` are the run states in which a run has not ended. -/
theorem State.ended_eq_false_iff : s.ended = false ↔ s.runState = .idle ∨ s.runState = .running := by
  cases h : s.runState <;> simp [State.ended, h]

/-- A state that takes a step has not ended (rule R106). -/
theorem ended_of_controllerStep (h : controllerStep ops s = .next t) : s.ended = false :=
  State.ended_eq_false_iff.2 (.inr (controllerStep_eq_next.1 h).1)

theorem runToEnd_zero_of_not_ended (h : s.ended = false) : runToEnd ops 0 s = none := by
  simp [runToEnd, h]

/-- Induction along a run that ends in `t`: from `t` itself, back over every step. -/
theorem runToEnd_induction {motive : Nat → State → Prop} (hended : ∀ fuel, t.ended = true → motive fuel t)
    (hstep : ∀ fuel s u, controllerStep ops s = .next u → motive fuel u → motive (fuel + 1) s) {fuel : Nat}
    (h : runToEnd ops fuel s = some t) : motive fuel s := by
  induction fuel generalizing s with
  | zero =>
    obtain ⟨he, rfl⟩ | ⟨n, u, hn, -⟩ := runToEnd_cases h
    · exact hended 0 he
    · cases hn
  | succ n ih =>
    obtain ⟨he, rfl⟩ | ⟨m, u, hm, -, hu, hrun⟩ := runToEnd_cases h
    · exact hended _ he
    · obtain rfl := Nat.succ.inj hm
      exact hstep n s u hu (ih hrun)

/-- Every answer of a run has ended. -/
theorem ended_of_runToEnd {fuel : Nat} (h : runToEnd ops fuel s = some t) : t.ended = true :=
  runToEnd_induction (motive := fun _ _ => t.ended = true) (fun _ he => he) (fun _ _ _ _ ih => ih) h

/-- More fuel gives the same final state. -/
theorem runToEnd_add {fuel : Nat} (h : runToEnd ops fuel s = some t) (more : Nat) :
    runToEnd ops (fuel + more) s = some t := by
  refine runToEnd_induction (motive := fun n u => runToEnd ops (n + more) u = some t) ?_ ?_ h
  · intro n he
    exact runToEnd_of_ended he (n + more)
  · intro n s u hu ih
    rw [Nat.add_right_comm, runToEnd_of_step (ended_of_controllerStep hu) hu, ih]

end Run

end Sys2Proof.Machine

/-! PROOFS. The statements of the family of 41_fetch_execute.md. -/

namespace Sys2Proof.Machine

/-- Settles O8: the byte at `pc` is no opcode, an operand there is bad, or the instruction completes, and each is a next
state. -/
theorem stepAnswersWhileRunning : Obligations.StepAnswersWhileRunning := by
  intro ops s hr
  obtain ⟨t, ht⟩ := exists_stepsTo ops s
  exact ⟨t, ht.controllerStep_eq hr⟩

/-- Settles O14: a fault keeps `pc`; the opcode at `pc` counts the operand bytes the advance goes past; CALL and RET,
well formed, complete with the `pc` they write. -/
theorem advanceByOperandCount : Obligations.AdvanceByOperandCount := by
  intro ops s t h
  obtain ⟨hr, hst⟩ := controllerStep_eq_next.1 h
  refine ⟨?_, ?_, ?_, ?_⟩
  · intro ht
    obtain ⟨cause, operand, rfl⟩ := hst.eq_raiseFault hr ht
    rfl
  · intro i ht hi hcall hret
    rw [(hst.completes_instrAt hi ht).pc_of_advance hcall hret, i.operands_length ops, load_pc_of_instrAt hi]
  · intro r hi
    have hwf : (Instr.call (regByte r)).wellFormed = true := by simp [Instr.wellFormed, Instr.regOperands]
    exact (hst.completes_wellFormed hr hi hwf).pc_of_call
  · intro hi
    exact (hst.completes_wellFormed hr hi rfl).pc_of_ret

/-- Settles O45: the equations of a run, and what holds of every answer by induction along the run. -/
theorem runEndsAndStays : Obligations.RunEndsAndStays := by
  refine ⟨?_, ?_, ?_, ?_, ?_⟩
  · intro ops fuel s he
    exact runToEnd_of_ended (State.ended_iff.2 he) fuel
  · intro ops s hs
    exact runToEnd_zero_of_not_ended (State.ended_eq_false_iff.2 hs)
  · intro ops fuel s t h
    exact runToEnd_of_step (ended_of_controllerStep h) h fuel
  · intro ops fuel s
    exact ⟨fun h => congrArg (runToEnd ops fuel) (startRun_of_idle h),
      fun h => congrArg (runToEnd ops fuel) (startRun_of_ne_idle h)⟩
  · intro ops fuel s t h
    have ht : t.ended = true := ended_of_runToEnd h
    refine ⟨State.ended_iff.1 ht, runToEnd_add h, fun u hu => ?_⟩
    exact Bool.false_ne_true ((ended_of_controllerStep hu).symm.trans ht)

/-- Settles O7: the machine's step is the controller's step with the default opcodes. -/
theorem stepRunsDecodedInstruction : Obligations.StepRunsDecodedInstruction :=
  ⟨fun _ _ _ hr h => controllerStep_of_instrAtPc hr h, fun _ _ hr h => controllerStep_of_instrAtPc hr h⟩

/-- Settles O9, by the run state. -/
theorem noStepOutsideRunning : Obligations.NoStepOutsideRunning :=
  fun ops _ => ⟨controllerStep_of_idle ops, controllerStep_of_halted ops, controllerStep_of_faulted ops⟩

/-- Settles O20: HLT completes in every state, and its effect is the run state and the advance. -/
theorem hltHalts : Obligations.HltHalts := by
  refine ⟨fun _ => rfl, fun s => ⟨_, Completes.hlt.exec_eq, rfl, rfl, ?_⟩⟩
  exact ⟨fun _ _ => rfl, rfl, ⟨rfl, rfl, rfl, rfl, rfl⟩, fun _ _ => rfl, rfl⟩

/-- Settles O42, by the run state. -/
theorem runStartsOnlyFromIdle : Obligations.RunStartsOnlyFromIdle :=
  fun _ => ⟨startRun_of_idle, startRun_of_ne_idle⟩

end Sys2Proof.Machine

/-! SUPPORT. The register check of an instruction with one register operand. -/

namespace Sys2Proof.Machine

/-- The only register operand is the first bad one where it names no register (rules R64, R154). -/
theorem firstBadOperand_of_regOperands_eq {i : Instr} {o : Byte} (hi : i.regOperands = [o]) (ho : 8 ≤ o.toNat) :
    FirstBadOperand i o := by
  rw [FirstBadOperand, hi]
  exact List.find?_cons_of_pos (by simp [namesReg_eq_false.2 ho])

end Sys2Proof.Machine

/-! PROOFS. The statements of the family of 42_load_print.md. -/

namespace Sys2Proof.Machine

/-- Settles O24: PRN completes with x[r] as the newest byte of the channel, or faults on its register operand. -/
theorem prnEmits : Obligations.PrnEmits := by
  refine ⟨fun _ _ => rfl, ?_, ?_⟩
  · intro r s
    exact ⟨_, (Completes.prn r).exec_eq, rfl, rfl, fun _ _ => rfl, rfl, rfl, ⟨rfl, rfl, rfl, rfl, rfl⟩, fun _ _ => rfl⟩
  · intro o s ho
    exact (firstBadOperand_of_regOperands_eq (i := .prn o) rfl ho).exists_next s

/-- Settles O26: LDI completes with the immediate in x[r], or faults on its register operand; no operand check reads the
immediate. -/
theorem ldiLoadsImmediate : Obligations.LdiLoadsImmediate := by
  refine ⟨fun _ _ _ => rfl, ?_, ?_⟩
  · intro r imm s
    exact ⟨_, (Completes.ldi r imm).exec_eq, s.setReg_reg_same r imm, s.setReg_sameRegsBut r imm, rfl, rfl, rfl,
      ⟨rfl, rfl, rfl, rfl, rfl⟩, fun _ _ => rfl, rfl⟩
  · intro o imm s ho
    exact (firstBadOperand_of_regOperands_eq (i := .ldi o imm) rfl ho).exists_next s

end Sys2Proof.Machine

/-! SUPPORT. The stack operations: the cell and the registers that a push and a pop leave (rules R131 to R133). -/

namespace Sys2Proof.Machine

section Stack
variable {s : State} {r : Reg}

theorem State.decSp_sp : s.decSp.sp = s.sp - 1 := s.setReg_spIndex_sp (s.sp - 1)

/-- The register that PUSH stores, read after the decrement: for R7 it is the decremented value (rule R133). -/
theorem State.decSp_reg (r : Reg) : s.decSp.reg r = if r = 7 then s.sp - 1 else s.reg r := s.setReg_reg 7 (s.sp - 1) r

/-- A push leaves what it pushed at the new stack pointer. -/
theorem pushByte_load_top (hm : s.mem.wf = true) (v : State → Byte) : (s.pushByte v).load s.decSp.sp = v s.decSp := by
  rw [State.decSp_sp, pushByte_load hm, if_pos rfl]

theorem pushByte_sameMemBut (hm : s.mem.wf = true) (v : State → Byte) : SameMemBut [s.decSp.sp] s (s.pushByte v) := by
  intro a ha
  rw [State.decSp_sp] at ha
  rw [pushByte_load hm, if_neg (List.ne_of_not_mem_cons ha)]

theorem pushByte_sameRegsBut (v : State → Byte) : SameRegsBut [7] s (s.pushByte v) := by
  intro q hq
  rw [pushByte_reg, if_neg (List.ne_of_not_mem_cons hq)]

/-- The increment of a pop leaves the register loaded, when that is not R7. -/
theorem incSp_setReg_reg (hr : r ≠ 7) (v : Byte) : (s.setReg r v).incSp.reg r = v := by
  rw [State.incSp_eq_setReg, State.setReg_reg_other _ hr, State.setReg_reg_same]

theorem incSp_setReg_sp (hr : r ≠ 7) (v : Byte) : (s.setReg r v).incSp.sp = s.sp + 1 := by
  rw [State.incSp_eq_setReg, State.setReg_spIndex_sp, State.setReg_sp_other _ hr]

/-- A pop into R7 increments the byte it loaded (rule R133). -/
theorem incSp_setReg_seven (v : Byte) : (s.setReg 7 v).incSp.sp = v + 1 := by
  rw [State.incSp_eq_setReg, State.setReg_spIndex_sp, State.setReg_spIndex_sp]

theorem incSp_setReg_sameRegsBut (r : Reg) (v : Byte) : SameRegsBut [r, 7] s (s.setReg r v).incSp := by
  intro q hq
  obtain ⟨hqr, hq7⟩ : q ≠ r ∧ q ≠ 7 := by simpa using hq
  rw [State.incSp_eq_setReg, State.setReg_reg_other _ hq7, State.setReg_reg_other _ hqr]

end Stack

end Sys2Proof.Machine

/-! PROOFS. The statements of the family of 43_stack.md. -/

namespace Sys2Proof.Machine

/-- Settles O22: PUSH completes with x[r], read after the decrement, at the new stack pointer, or faults on its register
operand. -/
theorem pushStores : Obligations.PushStores := by
  refine ⟨fun _ _ => rfl, rfl, ?_, ?_⟩
  · intro r s hm
    refine ⟨_, (Completes.push r).exec_eq, State.decSp_sp, pushByte_sp s fun t => t.reg r, ?_,
      pushByte_sameMemBut hm fun t => t.reg r, pushByte_sameRegsBut fun t => t.reg r, rfl, rfl, rfl,
      ⟨rfl, rfl, rfl, rfl, rfl⟩, rfl⟩
    exact (pushByte_load_top hm fun t => t.reg r).trans (State.decSp_reg r)
  · intro o s ho
    exact (firstBadOperand_of_regOperands_eq (i := .push o) rfl ho).exists_next s

/-- Settles O23: POP completes with the top byte in x[r] and then the increment, which for R7 falls on that byte, or faults
on its register operand. -/
theorem popLoads : Obligations.PopLoads := by
  refine ⟨fun _ _ => rfl, rfl, ?_, ?_⟩
  · intro r s
    refine ⟨_, (Completes.pop r).exec_eq, ?_, ?_, incSp_setReg_sameRegsBut r s.top, rfl, rfl, rfl,
      ⟨rfl, rfl, rfl, rfl, rfl⟩, fun _ _ => rfl, rfl⟩
    · intro hr
      exact ⟨incSp_setReg_reg hr s.top, incSp_setReg_sp hr s.top⟩
    · rintro rfl
      exact incSp_setReg_seven s.top
  · intro o s ho
    exact (firstBadOperand_of_regOperands_eq (i := .pop o) rfl ho).exists_next s

/-- Settles O37, from what PUSH and POP each do: the middle state keeps SP one lower and the pushed byte on top; POP's
increment undoes PUSH's decrement in SP, and for a = b = 7 in the pushed byte. -/
theorem pushPopRoundTrip : Obligations.PushPopRoundTrip := by
  intro a b s hm
  obtain ⟨-, -, hpush, -⟩ := pushStores
  obtain ⟨-, -, hpop, -⟩ := popLoads
  obtain ⟨s₁, hexec₁, hdec, hsp₁, htop₁, -⟩ := hpush a s hm
  refine ⟨s₁, hexec₁, fun u husp hutop => ?_⟩
  obtain ⟨t, hexec, hother, hseven, hregs, -⟩ := hpop b u
  have hsp : u.sp = s.sp - 1 := husp.trans hsp₁
  have htop : u.load u.sp = if a = 7 then s.sp - 1 else s.reg a := by rw [hutop, hsp₁, ← htop₁, hdec]
  refine ⟨t, hexec, hregs, ?_, ?_, ?_⟩
  · intro hb
    rw [(hother hb).2, hsp, BitVec.sub_add_cancel]
  · intro ha hb
    rw [(hother hb).1, htop, if_neg ha]
  · intro ha hb
    rw [hseven hb, htop, if_pos ha, BitVec.sub_add_cancel]

end Sys2Proof.Machine

/-! PROOFS. The statements of the family of 44_call_return.md. -/

namespace Sys2Proof.Machine

/-- Settles O25: CALL completes with the return address at the new stack pointer and its target read after the decrement, or
faults on its register operand. -/
theorem callPushesReturnAddress : Obligations.CallPushesReturnAddress := by
  refine ⟨fun _ _ => rfl, rfl, ?_, ?_⟩
  · intro r s hm
    have hcall := Completes.call (s := s) r
    refine ⟨_, hcall.exec_eq, State.decSp_sp, pushByte_sp s fun t => t.pc + 2, pushByte_load_top hm fun t => t.pc + 2,
      pushByte_sameMemBut hm fun t => t.pc + 2, ?_, pushByte_sameRegsBut fun t => t.pc + 2, rfl, rfl,
      ⟨rfl, rfl, rfl, rfl, rfl⟩, rfl⟩
    exact hcall.pc_of_call.trans (State.decSp_reg r)
  · intro o s ho
    exact (firstBadOperand_of_regOperands_eq (i := .call o) rfl ho).exists_next s

/-- Settles O21: RET completes in every state, with the top byte in `pc` and then the increment. -/
theorem retReturns : Obligations.RetReturns := by
  refine ⟨fun _ => rfl, rfl, fun s => ⟨_, Completes.ret.exec_eq, Completes.ret.pc_of_ret, ?_, ?_, rfl, rfl, ?_⟩⟩
  · exact s.setReg_spIndex_sp (s.sp + 1)
  · exact s.setReg_sameRegsBut 7 (s.sp + 1)
  · exact ⟨⟨rfl, rfl, rfl, rfl, rfl⟩, fun _ _ => rfl, rfl⟩

/-- Settles O38, from what CALL and RET each do: the middle state keeps SP one lower and the return address on top, so RET
goes there and its increment undoes CALL's decrement. -/
theorem callReturnLaw : Obligations.CallReturnLaw := by
  intro r s hm
  obtain ⟨-, -, hcall, -⟩ := callPushesReturnAddress
  obtain ⟨-, -, hret⟩ := retReturns
  obtain ⟨s₁, hexec₁, hdec, hsp₁, htop₁, -⟩ := hcall r s hm
  refine ⟨s₁, hexec₁, fun u husp hutop => ?_⟩
  obtain ⟨t, hexec, hpc, hsp, hregs, -⟩ := hret u
  refine ⟨t, hexec, ?_, ?_, hregs⟩
  · rw [hpc, hutop, hsp₁, ← hdec, htop₁]
  · rw [hsp, husp, hsp₁, BitVec.sub_add_cancel]

/-- Settles O39, from what PUSH and RET each do: RET jumps to the byte that PUSH left on top, and its increment restores R7,
the one register that PUSH changed. -/
theorem pushThenRetJumps : Obligations.PushThenRetJumps := by
  intro r s hr hm
  obtain ⟨-, -, hpush, -⟩ := pushStores
  obtain ⟨-, -, hret⟩ := retReturns
  obtain ⟨s₁, hexec₁, hdec, hsp₁, htop₁, -, hregs₁, -⟩ := hpush r s hm
  obtain ⟨t, hexec, hpc, hsp, hregs, -⟩ := hret s₁
  refine ⟨s₁, hexec₁, t, hexec, ?_, ?_⟩
  · rw [hpc, hsp₁, ← hdec, htop₁, if_neg hr]
  · intro q _
    obtain rfl | hq := eq_or_ne q 7
    · have hrestored : t.sp = s.sp := by rw [hsp, hsp₁, BitVec.sub_add_cancel]
      exact hrestored
    · have hother : q ∉ [(7 : Reg)] := by simpa using hq
      exact (hregs q hother).trans (hregs₁ q hother)

end Sys2Proof.Machine

/-! PROOFS. The statements of the family of 60_exceptions.md. -/

namespace Sys2Proof.Machine

/-- Settles O10: a byte with no entry in the dispatch table leaves the step no instruction, so it enters
`UnknownInstruction`. -/
theorem unknownOpcodeFaults : Obligations.UnknownOpcodeFaults := by
  intro ops s hr hop
  have hi : instrAt ops s = none := instrAt_eq_none.2 (dispatch_eq_none.2 hop)
  exact ⟨_, (StepsTo.unknown hi).controllerStep_eq hr, raiseFault_spec .unknownInstruction none s⟩

/-- Settles O11: the step is `exec` of the instruction at `pc`, which enters `OutOfBounds` for its first bad operand; the
byte recorded as the opcode is the one at `pc`. -/
theorem outOfBoundsOperandFaults : Obligations.OutOfBoundsOperandFaults := by
  intro ops s i o hr hi ho
  obtain ⟨t, hexec, ht⟩ := FirstBadOperand.exists_next ho s
  exact ⟨t, (controllerStep_of_instrAtPc hr hi).trans hexec, hi.opcode ▸ ht⟩

/-- Settles O19: of the three things a step can do, two enter a fatal condition, and a completed instruction does not end in
`Faulted`. -/
theorem onlyTwoFaultsReachable : Obligations.OnlyTwoFaultsReachable := by
  intro ops s t h ht
  obtain ⟨hr, hst⟩ := controllerStep_eq_next.1 h
  cases hst with
  | unknown hi => exact .inl (raiseFault_spec .unknownInstruction none s)
  | @outOfBounds i o hi ho => exact .inr ⟨o, ho.ge, raiseFault_spec .outOfBounds (some o) s⟩
  | completes hi hc => exact absurd ht (hc.not_faulted hr)

end Sys2Proof.Machine

/-! SUPPORT. What `write_memory` answers in each case, and what memory reads as after it (rules R182, R183). -/

namespace Sys2Proof.Machine

section WriteMemory
variable {s : State} {a : Addr} {bytes : List Byte}

theorem writeMemory_of_not_idle (h : s.runState ≠ .idle) : writeMemory a bytes s = .refused .writeMemoryNotIdle :=
  if_pos h

theorem writeMemory_of_past_end (hr : s.runState = .idle) (h : 256 < a.toNat + bytes.length) :
    writeMemory a bytes s = .refused .writeMemoryPastEnd :=
  (if_neg (not_not.2 hr)).trans (if_pos h)

theorem writeMemory_of_fits (hr : s.runState = .idle) (h : a.toNat + bytes.length ≤ 256) :
    writeMemory a bytes s = .next (s.storeBytes a bytes) :=
  (if_neg (not_not.2 hr)).trans (if_neg (Nat.not_lt.2 h))

/-- Bytes that end at or below address 255 do not wrap: a cell below `a` lies past all of them, and any other one at its
plain distance from `a`. -/
theorem State.storeBytes_load_of_fits (hm : s.mem.wf = true) (h : a.toNat + bytes.length ≤ 256) (x : Addr) :
    (s.storeBytes a bytes).load x =
      if a.toNat ≤ x.toNat then bytes.getD (x.toNat - a.toNat) (s.load x) else s.load x := by
  rw [State.storeBytes_load hm a (by omega)]
  split
  · next hle => rw [BitVec.toNat_sub_of_le hle]
  · next hlt =>
    have hpast : bytes.length ≤ (x - a).toNat := by
      rw [BitVec.toNat_sub_of_lt (Nat.lt_of_not_le hlt)]
      omega
    exact List.getD_eq_default _ _ hpast

end WriteMemory

theorem State.reset_load (x : Addr) : State.reset.load x = 0x00 := rfl

end Sys2Proof.Machine

/-! PROOFS. The statements of the family of 70_reset_and_hazards.md. -/

namespace Sys2Proof.Machine

/-- Settles O43: an accepted `write_memory` stores its bytes one after the other, which changes memory alone and does not
wrap; the program at 0 is the case of the empty reset memory. -/
theorem writeMemoryStores : Obligations.WriteMemoryStores := by
  refine ⟨?_, ?_⟩
  · intro a bytes s hm hr h
    exact ⟨_, writeMemory_of_fits hr h, s.storeBytes_frame a bytes, State.storeBytes_load_of_fits hm h⟩
  · intro bytes h
    have hfits : (0 : Addr).toNat + bytes.length ≤ 256 := (Nat.zero_add _).trans_le h
    refine ⟨_, writeMemory_of_fits rfl hfits, fun x => ?_⟩
    have hdist : x - 0 = x := BitVec.sub_zero x
    rw [State.storeBytes_load rfl 0 h, hdist, State.reset_load]

/-- Settles O41: every cell is unlisted, and the registers are the eight listed ones. -/
theorem resetState : Obligations.ResetState :=
  ⟨State.reset_load, by decide, rfl, rfl, rfl, rfl, rfl⟩

/-- Settles O44, by the two guards of `write_memory` in their order. -/
theorem writeMemoryRefusedOtherwise : Obligations.WriteMemoryRefusedOtherwise :=
  fun _ _ _ => ⟨writeMemory_of_not_idle, writeMemory_of_past_end⟩

end Sys2Proof.Machine
